-- ==== Sys2Proof/Word.lean ====
section
/-!
DEFINITION. The word types of the EMUPS5 block: the byte of memory (spec/10_state.md rule R27) and
the W-bit word of the register file and of the program counter (rules R20 and R24).
-/

namespace Sys2Proof

/-- One byte of memory: 8 bits (rule R27). -/
abbrev Byte := BitVec 8

/-- A register or program-counter word of `w` bits (rules R20 and R24): `w` is 32 or 64, by profile. -/
abbrev Word (w : Nat) := BitVec w

end Sys2Proof
end

