-- ==== Sys2Proof/Config.lean ====
section
/-!
DEFINITION. What is fixed at construction: the two profiles and every implementation parameter of
spec/00_scope.md rules R5 and R6. The block has no other configuration and leaves no value free.
-/

namespace Sys2Proof

/-- The two configurations the spec gives a meaning (rules R5 and R7; any other variant is refused by
the spec itself, spec/93_implementation_defined.md I15). -/
inductive Profile where
  | p32
  | p64
  deriving DecidableEq, Repr

/-- The byte order of the words of a loaded program file, the OPEN parameter of rule R5
(spec/92_eei_decisions.md D11). -/
inductive FileOrder where
  | big
  | little
  deriving DecidableEq, Repr

/-- How the offset field of BEQ is read: the parameter that spec/93_implementation_defined.md I3 asks of a
configuration whose S does not divide 2^BOW. Rule R131 reads it signed. DESIGN CHOICE (notes/assumptions/22.md):
where S divides 2^BOW, as in both profiles, the parameter may be given too, and changes no target. -/
inductive OffsetReading where
  | signed
  | unsigned
  deriving DecidableEq, Repr

/-- Where LOAD and STORE take their address from: the row MEMMODE of rule R5, rule R66. -/
inductive MemMode where
  | registerIndirect
  | directField
  deriving DecidableEq, Repr

namespace Profile

/-- Register, pc and data-word width in bits. -/
def W : Profile → Nat
  | .p32 => 32
  | .p64 => 64

/-- Number of general registers. -/
def N : Profile → Nat
  | .p32 => 16
  | .p64 => 256

/-- Word width in bytes: W / 8 (rule R6). -/
def WB : Profile → Nat
  | .p32 => 4
  | .p64 => 8

/-- Instruction width in bits (rule R60). -/
def IW : Profile → Nat
  | .p32 => 32
  | .p64 => 64

/-- Instruction width in bytes: IB = WB (rule R6). -/
def IB : Profile → Nat
  | .p32 => 4
  | .p64 => 8

/-- Width of the opcode field, the top bits of the word (rule R62). -/
def OPW : Profile → Nat
  | .p32 => 4
  | .p64 => 8

/-- Width of a register-index field. -/
def RFW : Profile → Nat
  | .p32 => 4
  | .p64 => 8

/-- LOAD/STORE address form (rule R66). -/
def MEMMODE : Profile → MemMode
  | .p32 => .registerIndirect
  | .p64 => .directField

/-- Width of the direct address field of LOAD and STORE; P32 has none. -/
def AFW : Profile → Option Nat
  | .p32 => none
  | .p64 => some 48

/-- Width of the JMP absolute address field. -/
def JFW : Profile → Nat
  | .p32 => 28
  | .p64 => 56

/-- Width of the two's-complement BEQ offset field. -/
def BOW : Profile → Nat
  | .p32 => 20
  | .p64 => 40

/-- Width of the SETPIXEL x and y fields. -/
def XYW : Profile → Nat
  | .p32 => 6
  | .p64 => 12

/-- Width of a SETPIXEL channel field. -/
def CW : Profile → Nat
  | .p32 => 4
  | .p64 => 8

/-- The profile's memory size in bytes: 65536, and 2^34 (decision D2). -/
def defaultS : Profile → Nat
  | .p32 => 65536
  | .p64 => 17179869184

end Profile

/-- A block's construction arguments: the profile, the four parameters that rule R5 lets a model take as
arguments, and the reading of BEQ's offset (spec/93_implementation_defined.md I3). -/
structure Config where
  /-- P32 or P64: it fixes every width, N and the opcode map's field layout. -/
  profile : Profile
  /-- S, the memory size in bytes. -/
  S : Nat
  /-- FB_W, the framebuffer width in pixels. -/
  fbW : Nat
  /-- FB_H, the framebuffer height in pixels. -/
  fbH : Nat
  /-- FILE_ORDER. -/
  fileOrder : FileOrder
  /-- Whether BEQ's offset field is read signed or unsigned. -/
  offsetReading : OffsetReading
  deriving DecidableEq, Repr

namespace Config

/-- FB_BASE, the framebuffer base address: 0 in every configuration (rule R5). -/
def fbBase (_ : Config) : Nat := 0

/-- The configuration the spec gives a profile: the table of rule R5, and the signed reading of rule R131. -/
def standard (p : Profile) : Config :=
  { profile := p, S := p.defaultS, fbW := 64, fbH := 64, fileOrder := .big,
    offsetReading := .signed }

/-- The constraints of rule R6 (decision D24) on the parameters that are arguments. The others (WB = W / 8,
IB = WB, N <= 2^RFW) hold of both profiles by their values. -/
abbrev Valid (c : Config) : Prop :=
  c.profile.IB < c.S ∧
  c.fbBase + c.fbW * c.fbH * 4 ≤ c.S ∧
  c.fbW ≤ 2 ^ c.profile.XYW ∧
  c.fbH ≤ 2 ^ c.profile.XYW ∧
  c.S + c.profile.IB ≤ 2 ^ c.profile.W

end Config

end Sys2Proof
end

