-- ==== Sys2Proof/Syntax.lean ====
section
/-!
DEFINITION. The instructions, as syntax: one constructor for each of the 22 rows of
spec/opcode_table.json. Operands are the field values of spec/30_encoding.md rule R65 after
decoding: unsigned numbers, and a signed number for the BEQ offset. The bits that rule R67 calls
ignored are no operand.
-/

namespace Sys2Proof

/-- An instruction of the EMUPS5 ISA. The suffix names the profile whose encoding table holds the row;
the outcome UNKNOWN(k) of rule R69 has one row in P32 and five in P64, whose opcodes partition 8..255. -/
inductive Instr where
  /-- P32 row NOP (rule R100). -/
  | nopP32
  /-- P32 row MOV (rule R101). -/
  | movP32 (rd rs : Nat)
  /-- P32 row ADD (rule R102). -/
  | addP32 (rd rs1 rs2 : Nat)
  /-- P32 row LOAD, register-indirect (rules R66 and R110). -/
  | loadP32 (rd ra : Nat)
  /-- P32 row STORE, register-indirect (rules R66 and R111). -/
  | storeP32 (rs ra : Nat)
  /-- P32 row SETPIXEL (rule R120). -/
  | setpixelP32 (x y r g b a : Nat)
  /-- P32 row JMP (rule R130). -/
  | jmpP32 (addr : Nat)
  /-- P32 row BEQ (rule R131). -/
  | beqP32 (ra rb : Nat) (off : Int)
  /-- P32 row UNKNOWN, opcodes 8 to 15 (rule R93). -/
  | unknownP32 (op : Nat)
  /-- P64 row NOP (rule R100). -/
  | nopP64
  /-- P64 row MOV (rule R101). -/
  | movP64 (rd rs : Nat)
  /-- P64 row ADD (rule R102). -/
  | addP64 (rd rs1 rs2 : Nat)
  /-- P64 row LOAD, direct 48-bit address field (rules R66 and R110). -/
  | loadP64 (rd addr : Nat)
  /-- P64 row STORE, direct 48-bit address field (rules R66 and R111). -/
  | storeP64 (rs addr : Nat)
  /-- P64 row SETPIXEL (rule R120). -/
  | setpixelP64 (x y r g b a : Nat)
  /-- P64 row JMP (rule R130). -/
  | jmpP64 (addr : Nat)
  /-- P64 row BEQ (rule R131). -/
  | beqP64 (ra rb : Nat) (off : Int)
  /-- P64 row UNKNOWN, opcodes 8 to 15 (rule R93). -/
  | unknown8P64 (op : Nat)
  /-- P64 row UNKNOWN, opcodes 16 to 31 (rule R93). -/
  | unknown16P64 (op : Nat)
  /-- P64 row UNKNOWN, opcodes 32 to 63 (rule R93). -/
  | unknown32P64 (op : Nat)
  /-- P64 row UNKNOWN, opcodes 64 to 127 (rule R93). -/
  | unknown64P64 (op : Nat)
  /-- P64 row UNKNOWN, opcodes 128 to 255 (rule R93). -/
  | unknown128P64 (op : Nat)
  deriving DecidableEq, Repr

/-- The profile whose encoding table holds the instruction. -/
def Instr.profile : Instr → Profile
  | .nopP32 | .movP32 _ _ | .addP32 _ _ _ | .loadP32 _ _ | .storeP32 _ _ => .p32
  | .setpixelP32 _ _ _ _ _ _ | .jmpP32 _ | .beqP32 _ _ _ | .unknownP32 _ => .p32
  | .nopP64 | .movP64 _ _ | .addP64 _ _ _ | .loadP64 _ _ | .storeP64 _ _ => .p64
  | .setpixelP64 _ _ _ _ _ _ | .jmpP64 _ | .beqP64 _ _ _ => .p64
  | .unknown8P64 _ | .unknown16P64 _ | .unknown32P64 _ | .unknown64P64 _ | .unknown128P64 _ => .p64

/-- The opcode number of the dispatch table (rule R68). -/
def Instr.opcode : Instr → Nat
  | .nopP32 | .nopP64 => 0
  | .movP32 _ _ | .movP64 _ _ => 1
  | .addP32 _ _ _ | .addP64 _ _ _ => 2
  | .loadP32 _ _ | .loadP64 _ _ => 3
  | .storeP32 _ _ | .storeP64 _ _ => 4
  | .setpixelP32 _ _ _ _ _ _ | .setpixelP64 _ _ _ _ _ _ => 5
  | .jmpP32 _ | .jmpP64 _ => 6
  | .beqP32 _ _ _ | .beqP64 _ _ _ => 7
  | .unknownP32 k => k
  | .unknown8P64 k | .unknown16P64 k | .unknown32P64 k | .unknown64P64 k | .unknown128P64 k => k

end Sys2Proof
end

