-- ==== Sys2Proof/WellFormed.lean ====
section
/-!
DEFINITION. Which instructions have an encoding: every operand fits its field, the refusal that
spec/30_encoding.md rule R81 asks of an assembler. The decoder gives no other (rule R69).
-/

namespace Sys2Proof

/-- `v` fits an unsigned field of `n` bits. -/
def fitsField (n v : Nat) : Bool := decide (v < 2 ^ n)

/-- `off` fits a two's-complement field of `n` bits: `-2^(n-1) <= off < 2^(n-1)` (rule R81). -/
def fitsSigned (n : Nat) (off : Int) : Bool :=
  decide (-(2 ^ (n - 1) : Int) ≤ off) && decide (off < (2 ^ (n - 1) : Int))

/-- The opcode lies in the row's range. -/
def inOpcodeRow (lo hi op : Nat) : Bool := decide (lo ≤ op) && decide (op ≤ hi)

/-- Every operand fits the field of rule R63 (P32) or rule R64 (P64), and an unknown opcode lies in
its row of the opcode table. -/
def Instr.wf : Instr → Bool
  | .nopP32 => true
  | .movP32 rd rs => fitsField 4 rd && fitsField 4 rs
  | .addP32 rd rs1 rs2 => fitsField 4 rd && fitsField 4 rs1 && fitsField 4 rs2
  | .loadP32 rd ra => fitsField 4 rd && fitsField 4 ra
  | .storeP32 rs ra => fitsField 4 rs && fitsField 4 ra
  | .setpixelP32 x y r g b a =>
    fitsField 6 x && fitsField 6 y && fitsField 4 r && fitsField 4 g && fitsField 4 b && fitsField 4 a
  | .jmpP32 addr => fitsField 28 addr
  | .beqP32 ra rb off => fitsField 4 ra && fitsField 4 rb && fitsSigned 20 off
  | .unknownP32 op => inOpcodeRow 8 15 op
  | .nopP64 => true
  | .movP64 rd rs => fitsField 8 rd && fitsField 8 rs
  | .addP64 rd rs1 rs2 => fitsField 8 rd && fitsField 8 rs1 && fitsField 8 rs2
  | .loadP64 rd addr => fitsField 8 rd && fitsField 48 addr
  | .storeP64 rs addr => fitsField 8 rs && fitsField 48 addr
  | .setpixelP64 x y r g b a =>
    fitsField 12 x && fitsField 12 y && fitsField 8 r && fitsField 8 g && fitsField 8 b && fitsField 8 a
  | .jmpP64 addr => fitsField 56 addr
  | .beqP64 ra rb off => fitsField 8 ra && fitsField 8 rb && fitsSigned 40 off
  | .unknown8P64 op => inOpcodeRow 8 15 op
  | .unknown16P64 op => inOpcodeRow 16 31 op
  | .unknown32P64 op => inOpcodeRow 32 63 op
  | .unknown64P64 op => inOpcodeRow 64 127 op
  | .unknown128P64 op => inOpcodeRow 128 255 op

end Sys2Proof
end

