-- ==== Sys2Proof/Decode.lean ====
section
/-!
DEFINITION. The decoder of spec/30_encoding.md rules R61 to R70, with the bit-slice, sign-extension and
byte-order helpers it uses, and after it the encoder of rule R81 and the pseudo-instructions of rule R82.
-/

namespace Sys2Proof

/-! ### Slices, sign extension and byte order -/

/-- `w[hi:lo]`, the unsigned number formed by bits hi down to lo (spec/00_scope.md rule R8). -/
def bits (w hi lo : Nat) : Nat := w / 2 ^ lo % 2 ^ (hi + 1 - lo)

/-- `sext_n(v)`: the signed reading of an n-bit field value (rule R10). -/
def sext (n v : Nat) : Int := if bits v (n - 1) (n - 1) = 1 then (v : Int) - 2 ^ n else (v : Int)

/-- The n-bit field that holds a signed number: `off mod 2^n` (rule R81). -/
def signedField (n : Nat) (off : Int) : Nat := (off % (2 ^ n : Int)).toNat

/-- The little-endian unsigned number of a list of bytes: the sum of `b_j * 2^(8*j)` (spec/20_memory.md
rule R41). -/
def leValue : List Byte → Nat
  | [] => 0
  | b :: bs => b.toNat + 256 * leValue bs

/-- The K low bytes of a number, lowest first: byte j is `(v div 2^(8*j)) mod 256` (rule R42). -/
def leBytes : Nat → Nat → List Byte
  | 0, _ => []
  | k + 1, v => BitVec.ofNat 8 v :: leBytes k (v / 256)

/-! ### The decoder -/

/-- Decode a P32 word: the dispatch of rule R68 on `w[31:28]`, the fields of rule R63. -/
def decode32 (w : Nat) : Instr :=
  match bits w 31 28 with
  | 0 => .nopP32
  | 1 => .movP32 (bits w 27 24) (bits w 23 20)
  | 2 => .addP32 (bits w 27 24) (bits w 23 20) (bits w 19 16)
  | 3 => .loadP32 (bits w 27 24) (bits w 23 20)
  | 4 => .storeP32 (bits w 27 24) (bits w 23 20)
  | 5 => .setpixelP32 (bits w 27 22) (bits w 21 16) (bits w 15 12) (bits w 11 8) (bits w 7 4) (bits w 3 0)
  | 6 => .jmpP32 (bits w 27 0)
  | 7 => .beqP32 (bits w 27 24) (bits w 23 20) (sext 20 (bits w 19 0))
  | op => .unknownP32 op

/-- The P64 row of an unknown opcode: the five rows of spec/opcode_table.json partition 8..255 (rule R93). -/
def decodeUnknown64 (op : Nat) : Instr :=
  if op < 16 then .unknown8P64 op
  else if op < 32 then .unknown16P64 op
  else if op < 64 then .unknown32P64 op
  else if op < 128 then .unknown64P64 op
  else .unknown128P64 op

/-- Decode a P64 word: the dispatch of rule R68 on `w[63:56]`, the fields of rule R64. -/
def decode64 (w : Nat) : Instr :=
  match bits w 63 56 with
  | 0 => .nopP64
  | 1 => .movP64 (bits w 55 48) (bits w 47 40)
  | 2 => .addP64 (bits w 55 48) (bits w 47 40) (bits w 39 32)
  | 3 => .loadP64 (bits w 55 48) (bits w 47 0)
  | 4 => .storeP64 (bits w 55 48) (bits w 47 0)
  | 5 => .setpixelP64 (bits w 55 44) (bits w 43 32) (bits w 31 24) (bits w 23 16) (bits w 15 8) (bits w 7 0)
  | 6 => .jmpP64 (bits w 55 0)
  | 7 => .beqP64 (bits w 55 48) (bits w 47 40) (sext 40 (bits w 39 0))
  | op => decodeUnknown64 op

/-- `decode(w)` of rule R69. It is total: no word is rejected (rule R70). -/
def decodeWord : Profile → Nat → Instr
  | .p32, w => decode32 w
  | .p64, w => decode64 w

/-- Why a byte sequence is no instruction. -/
inductive DecodeError where
  /-- Fewer than the IB bytes that every instruction of the profile has (rule R60). -/
  | tooFewBytes
  deriving DecidableEq, Repr

/-- Decode the first IB bytes of a sequence, read little-endian (rule R61), and give back the rest. -/
def decodeBytes (p : Profile) (bs : List Byte) : Except DecodeError (Instr × List Byte) :=
  if bs.length < p.IB then .error .tooFewBytes
  else .ok (decodeWord p (leValue (bs.take p.IB)), bs.drop p.IB)

/-- The profile whose words have `nbits` bits (rule R60). -/
def profileOfWidth (nbits : Nat) : Option Profile :=
  if nbits = 32 then some .p32 else if nbits = 64 then some .p64 else none

/-- What the decoder reads from the word `w` of an opcode-table row of `nbits` bits, laid out in bytes as
memory holds it. -/
def decodeTableWord (nbits w : Nat) : Option Instr :=
  match profileOfWidth nbits with
  | none => none
  | some p =>
    match decodeBytes p (leBytes p.IB w) with
    | .ok (i, _) => some i
    | .error _ => none

/-! ### The encoder -/

/-- The word of an instruction, by the formulas of rule R81; ignored bits are 0. The word of an unknown
opcode k is k in the opcode field (rule R62). -/
def encode : Instr → Nat
  | .nopP32 => 0
  | .movP32 rd rs => 2 ^ 28 * 1 + 2 ^ 24 * rd + 2 ^ 20 * rs
  | .addP32 rd rs1 rs2 => 2 ^ 28 * 2 + 2 ^ 24 * rd + 2 ^ 20 * rs1 + 2 ^ 16 * rs2
  | .loadP32 rd ra => 2 ^ 28 * 3 + 2 ^ 24 * rd + 2 ^ 20 * ra
  | .storeP32 rs ra => 2 ^ 28 * 4 + 2 ^ 24 * rs + 2 ^ 20 * ra
  | .setpixelP32 x y r g b a =>
    2 ^ 28 * 5 + 2 ^ 22 * x + 2 ^ 16 * y + 2 ^ 12 * r + 2 ^ 8 * g + 2 ^ 4 * b + a
  | .jmpP32 addr => 2 ^ 28 * 6 + addr
  | .beqP32 ra rb off => 2 ^ 28 * 7 + 2 ^ 24 * ra + 2 ^ 20 * rb + signedField 20 off
  | .unknownP32 op => 2 ^ 28 * op
  | .nopP64 => 0
  | .movP64 rd rs => 2 ^ 56 * 1 + 2 ^ 48 * rd + 2 ^ 40 * rs
  | .addP64 rd rs1 rs2 => 2 ^ 56 * 2 + 2 ^ 48 * rd + 2 ^ 40 * rs1 + 2 ^ 32 * rs2
  | .loadP64 rd addr => 2 ^ 56 * 3 + 2 ^ 48 * rd + addr
  | .storeP64 rs addr => 2 ^ 56 * 4 + 2 ^ 48 * rs + addr
  | .setpixelP64 x y r g b a =>
    2 ^ 56 * 5 + 2 ^ 44 * x + 2 ^ 32 * y + 2 ^ 24 * r + 2 ^ 16 * g + 2 ^ 8 * b + a
  | .jmpP64 addr => 2 ^ 56 * 6 + addr
  | .beqP64 ra rb off => 2 ^ 56 * 7 + 2 ^ 48 * ra + 2 ^ 40 * rb + signedField 40 off
  | .unknown8P64 op => 2 ^ 56 * op
  | .unknown16P64 op => 2 ^ 56 * op
  | .unknown32P64 op => 2 ^ 56 * op
  | .unknown64P64 op => 2 ^ 56 * op
  | .unknown128P64 op => 2 ^ 56 * op

/-- The IB bytes of an instruction as memory holds them (rules R46 and R61). -/
def encodeBytes (i : Instr) : List Byte := leBytes i.profile.IB (encode i)

/-! ### Pseudo-instructions of rule R82 -/

/-- `DATA v`: the word v itself, refused unless `v < 2^(IW-OPW)`; it decodes as NOP. -/
def dataWord (p : Profile) (v : Nat) : Option Nat :=
  if v < 2 ^ (p.IW - p.OPW) then some v else none

/-- `HALT` = `JMP 2^JFW - 1`. -/
def haltInstr : Profile → Instr
  | .p32 => .jmpP32 (2 ^ 28 - 1)
  | .p64 => .jmpP64 (2 ^ 56 - 1)

/-- `BRA off` = `BEQ r0, r0, off`. -/
def braInstr : Profile → Int → Instr
  | .p32, off => .beqP32 0 0 off
  | .p64, off => .beqP64 0 0 off

end Sys2Proof
end

