-- ==== Sys2Proof/Machine/State.lean ====
section
/-!
DEFINITION. The whole state of the block (spec/10_state.md): the registers, pc, memory, run_state, loaded
and events, beside the construction arguments; its values at construction (rule R32); and the reasons a
step can stop.
-/

namespace Sys2Proof.Machine

/-- `run_state` (rule R29). -/
inductive RunState where
  | idle
  | running
  | paused
  | halted
  deriving DecidableEq, Repr

/-- The severity of an event (rules R31 and R141). -/
inductive Severity where
  | info
  | success
  | warning
  | error
  deriving DecidableEq, Repr

/-- The kind of an event, in the order of its code 0 to 4 (rule R141). -/
inductive EventKind where
  | loaded
  | programNotLoaded
  | paused
  | stopped
  | unknownOpcode
  deriving DecidableEq, Repr

/-- The code number of a kind (rule R141, decision D27). -/
def EventKind.code : EventKind → Nat
  | .loaded => 0
  | .programNotLoaded => 1
  | .paused => 2
  | .stopped => 3
  | .unknownOpcode => 4

/-- The cause a STOPPED event carries (rule R141). -/
inductive StopCause where
  | host
  | memoryExhausted
  deriving DecidableEq, Repr

/-- The info field of an event (rule R141). -/
inductive EventInfo where
  /-- No info: PROGRAM_NOT_LOADED and PAUSED. -/
  | noInfo
  /-- The byte count of a loaded program: LOADED. -/
  | byteCount (n : Nat)
  /-- Why the block stopped: STOPPED. -/
  | cause (c : StopCause)
  /-- The opcode and the address of the instruction: UNKNOWN_OPCODE. -/
  | opcodeAt (op pc0 : Nat)
  deriving DecidableEq, Repr

/-- An event record `(severity, kind, info)` (rule R31). -/
structure Event where
  severity : Severity
  kind : EventKind
  info : EventInfo
  deriving DecidableEq, Repr

/-- Memory: the bytes that are not 0, by strictly rising address; an address that is not listed holds 0,
its value at construction (rule R32). `Memory.wf` says the form holds. -/
abbrev Memory := List Host.Cell

/-- The state of the block. -/
structure State where
  /-- The construction arguments (rules R5 and R6); no step and no command changes them. -/
  cfg : Config
  /-- The register file `x[0..N-1]` of W-bit words (rule R20). -/
  x : Vector (Word cfg.profile.W) cfg.profile.N
  /-- The program counter (rule R24). -/
  pcWord : Word cfg.profile.W
  /-- The bytes `M[0..S-1]` (rule R27); the framebuffer is part of them (rule R28). -/
  mem : Memory
  /-- The run-state (rule R29). -/
  runState : RunState
  /-- Whether a program was ever loaded (rule R30). -/
  loaded : Bool
  /-- The event FIFO, oldest first (rule R31). -/
  events : List Event
  deriving DecidableEq, Repr

/-- The faults of the machine: there are none. Every anomaly has a deterministic resolution in place and no
case is a fault or a stuck state (rules R140, R142 and R144, spec/93_implementation_defined.md). -/
inductive Fault where
  deriving DecidableEq, Repr

/-- Why `exec` gives an instruction no meaning. -/
inductive Refusal where
  /-- Raised by an arm of `exec` whose instruction has no meaning yet. Safe. No arm raises it. -/
  | notModelled (mnemonic : String)
  /-- Raised by `exec` for an instruction of the other profile's encoding table: the block's decoder is
  fixed at construction (rule R60) and never gives it one. Safe: `step` never raises it. -/
  | otherProfile
  deriving DecidableEq, Repr

/-- A block right after construction (rules R32 and R170). -/
def State.construct (c : Config) : State :=
  { cfg := c
    x := Vector.replicate _ 0
    pcWord := 0
    mem := []
    runState := .idle
    loaded := false
    events := [] }

/-- The machine after reset: the P32 block of the table of rule R5, just constructed. -/
def State.reset : State := State.construct (Config.standard .p32)

end Sys2Proof.Machine
end

