-- ==== Sys2Proof/Machine/Memory.lean ====
section
/-!
DEFINITION. The byte array of spec/10_state.md rule R27 as a canonical list of its nonzero bytes: one
byte read and written, and runs of bytes built from these.
-/

namespace Sys2Proof.Machine

/-- `M[a]`; an unlisted byte is 0 (rule R32). -/
def Memory.get : Memory → Nat → Byte
  | [], _ => 0
  | (b, v) :: m, a => if b = a then v else Memory.get m a

/-- `M[a] <- v`, keeping the canonical form: a 0 is not listed. -/
def Memory.put : Memory → Nat → Byte → Memory
  | [], a, v => if v = 0 then [] else [(a, v)]
  | (b, u) :: m, a, v =>
    if a < b then (if v = 0 then (b, u) :: m else (a, v) :: (b, u) :: m)
    else if a = b then (if v = 0 then m else (a, v) :: m)
    else (b, u) :: Memory.put m a v

/-- The listed addresses rise strictly from `lo` on and no listed byte is 0. -/
def Memory.wfFrom : Nat → Memory → Bool
  | _, [] => true
  | lo, (a, v) :: m => decide (lo ≤ a) && decide (v ≠ 0) && Memory.wfFrom (a + 1) m

/-- The canonical form: addresses strictly rising, no listed byte 0. -/
def Memory.wf (m : Memory) : Bool := Memory.wfFrom 0 m

/-- Every listed address exists in a memory of `n` bytes. -/
def Memory.within (n : Nat) (m : Memory) : Bool := m.all (fun c => decide (c.1 < n))

/-- The little-endian number of the `k` bytes from `a` on (rule R41, the in-bounds case). -/
def Memory.readLE (m : Memory) (a : Nat) : Nat → Nat
  | 0 => 0
  | k + 1 => (Memory.get m a).toNat + 256 * Memory.readLE m (a + 1) k

/-- `M[a+j] <- b_j` for each byte of the list (rule R43, the in-bounds case). -/
def Memory.writeBytes (m : Memory) (a : Nat) : List Byte → Memory
  | [] => m
  | b :: bs => Memory.writeBytes (Memory.put m a b) (a + 1) bs

end Sys2Proof.Machine
end

