-- ==== Sys2Proof/Machine/Ops.lean ====
section
/-!
DEFINITION. The shared operations: the register file's ports, the memory's ports `read`, `write`,
`write_bytes` and the view (spec/20_memory.md), events, the stop that ends a run (spec/60_exceptions.md),
the pc update and halt check that end a step, and the fetch that begins one (spec/40_execution_cycle.md).
-/

namespace Sys2Proof.Machine

/-! ### Registers and pc -/

/-- `clamp(i) = min(i, N-1)` (rule R23). -/
def State.clamp (s : State) (i : Nat) : Nat := min i (s.cfg.profile.N - 1)

theorem State.clamp_lt (s : State) (i : Nat) : s.clamp i < s.cfg.profile.N := by
  have h : 0 < s.cfg.profile.N := by cases s.cfg.profile <;> decide
  unfold State.clamp
  omega

/-- The read port `get`: `x[i]` as an unsigned number (rules R9 and R20). -/
def State.reg (s : State) (i : Nat) : Nat := (s.x[s.clamp i]'(s.clamp_lt i)).toNat

/-- The write port `set`: `x[i] <- v mod 2^W` (rule R9). No register is hardwired (rule R21). -/
def State.setReg (s : State) (i v : Nat) : State :=
  { s with x := s.x.set (s.clamp i) (BitVec.ofNat _ v) (s.clamp_lt i) }

/-- The program counter as a number (rule R24). -/
def State.pc (s : State) : Nat := s.pcWord.toNat

/-- `pc <- target` (rule R9). -/
def State.setPc (s : State) (target : Nat) : State :=
  { s with pcWord := BitVec.ofNat _ target }

/-! ### Control state and events -/

/-- `run_state <- r`. -/
def State.setRunState (s : State) (r : RunState) : State := { s with runState := r }

/-- `loaded <- true`. -/
def State.setLoaded (s : State) : State := { s with loaded := true }

/-- `emit(e)`: append one event to the tail of the FIFO (rules R12 and R31). -/
def State.emit (s : State) (e : Event) : State := { s with events := s.events ++ [e] }

/-- LOADED, with the byte count (rule R141). -/
def Event.loaded (n : Nat) : Event := ⟨.success, .loaded, .byteCount n⟩

/-- PROGRAM_NOT_LOADED (rule R141). -/
def Event.programNotLoaded : Event := ⟨.error, .programNotLoaded, .noInfo⟩

/-- PAUSED (rule R141). -/
def Event.paused : Event := ⟨.warning, .paused, .noInfo⟩

/-- STOPPED, with its cause; error is the source's severity (rules R141 and R148). -/
def Event.stopped (c : StopCause) : Event := ⟨.error, .stopped, .cause c⟩

/-- UNKNOWN_OPCODE, with the opcode and the address (rules R93 and R141). -/
def Event.unknownOpcode (op pc0 : Nat) : Event := ⟨.warning, .unknownOpcode, .opcodeAt op pc0⟩

/-! ### Memory ports -/

/-- Replace the byte array. -/
def State.setMem (s : State) (m : Memory) : State := { s with mem := m }

/-- `M[a]` (rule R27). -/
def State.byteAt (s : State) (a : Nat) : Byte := s.mem.get a

/-- An access of `k` bytes at `a` is in bounds: the sum is not wrapped (rule R40). -/
def State.inBounds (s : State) (a k : Nat) : Bool := decide (a + k ≤ s.cfg.S)

/-- `MemRead(a, k)`: little-endian, 0 when out of bounds (rules R41 and R50). -/
def State.memRead (s : State) (a k : Nat) : Nat :=
  if s.inBounds a k then s.mem.readLE a k else 0

/-- `MemWriteBytes(a, bs)`: nothing when out of bounds (rules R43 and R50). -/
def State.memWriteBytes (s : State) (a : Nat) (bs : List Byte) : State :=
  if s.inBounds a bs.length then s.setMem (s.mem.writeBytes a bs) else s

/-- `MemWrite(a, k, v)`: the k low bytes of v, lowest first; nothing when out of bounds (rules R42 and R50). -/
def State.memWrite (s : State) (a k v : Nat) : State := s.memWriteBytes a (leBytes k v)

/-! ### The end of a run and the end of a step -/

/-- What `stop()` and the forced halt both do: Halted, pc 0, an error-severity STOPPED event that tells the
cause (rules R148 and R150). The block has no other way to leave a program: no trap entry and no trap
return exist (rule R144); a later `start` resumes at the pc left here. -/
def State.stopWith (s : State) (c : StopCause) : State :=
  ((s.setRunState .halted).setPc 0).emit (Event.stopped c)

/-- The end of a step: pc is the target an instruction set, else pc0 + IB, and a result at or beyond S forces
the halt (rules R91, R92 and R150). An instruction's own effect leaves pc at pc0. -/
def State.retire (s : State) (pcSet : Option Nat) : State :=
  let target := pcSet.getD (s.pc + s.cfg.profile.IB)
  if s.cfg.S ≤ target then s.stopWith .memoryExhausted else s.setPc target

/-- Answer `t` when the block was constructed with the profile `p`; a block of the other profile has no
decoder for the instruction (rule R60). -/
def State.onProfile (s : State) (p : Profile) (t : State) : Host.Outcome State Fault Refusal :=
  if s.cfg.profile = p then .next t else .refused .otherProfile

/-! ### Fetch -/

/-- The fetched word: the IB bytes at pc, 0 when they are out of bounds (rules R61 and R94). -/
def State.fetchWord (s : State) : Nat := s.memRead s.pc s.cfg.profile.IB

/-- The instruction a step executes, fetched and decoded afresh (rules R56 and R91). -/
def State.fetchInstr (s : State) : Instr := decodeWord s.cfg.profile s.fetchWord

end Sys2Proof.Machine
end

