-- ==== Sys2Proof/Machine/Operands.lean ====
section
/-!
DEFINITION. The operand forms: the two addressing modes of spec/42_load_store.md rule R112, the pixel
address and channel scaling of spec/43_setpixel.md, and the two control-transfer targets of
spec/44_control.md.
-/

namespace Sys2Proof.Machine

/-- Register-indirect address, the P32 form: the full W-bit value `x[ra]`, no displacement (rules R66, R112). -/
def State.indirectAddr (s : State) (ra : Nat) : Nat := s.reg ra

/-- Direct address, the P64 form: the address field, zero-extended and not scaled (rules R65, R66, R112). -/
def directAddr (addr : Nat) : Nat := addr

/-- JMP's target: the address field, zero-extended, not reduced and not aligned (rules R65 and R130). -/
def jumpTarget (addr : Nat) : Nat := addr

/-- The displacement a BEQ's operand stands for. The operand is the signed reading of the offset field (rules R65
and R69), and rule R131 adds it as it is. A configuration may have the unsigned reading instead, which is the field
itself, `off mod 2^BOW`: spec/93_implementation_defined.md I3 makes the reading a parameter where S does not divide
2^BOW. The model's choice of where the parameter acts is marked in notes/assumptions/22.md. -/
def State.branchOffset (s : State) (off : Int) : Int :=
  match s.cfg.offsetReading with
  | .signed => off
  | .unsigned => (signedField s.cfg.profile.BOW off : Int)

/-- A taken BEQ's target: `(pc0 + off) mod S`, with the mathematical remainder (rules R10 and R131). -/
def State.branchTarget (s : State) (off : Int) : Nat :=
  (((s.pc : Int) + s.branchOffset off) % (s.cfg.S : Int)).toNat

/-- The address of channel 0 of pixel (x, y): `FB_BASE + y*FB_W*4 + x*4` (rules R28 and R120). -/
def State.pixelAddr (s : State) (x y : Nat) : Nat := s.cfg.fbBase + y * s.cfg.fbW * 4 + x * 4

/-- The pixel lies in the framebuffer (rule R120). -/
def State.pixelInRange (s : State) (x y : Nat) : Bool := decide (x < s.cfg.fbW) && decide (y < s.cfg.fbH)

/-- `scale(v) = v * floor(255 / (2^CW - 1))` for a channel field of CW bits (rule R121, spec/90_conflicts.md
C1: the floor form). -/
def scale (cw v : Nat) : Nat := v * (255 / (2 ^ cw - 1))

/-- The four bytes SETPIXEL writes, R, G, B, A at rising addresses (rule R120). -/
def State.pixelBytes (s : State) (r g b a : Nat) : List Byte :=
  [BitVec.ofNat 8 (scale s.cfg.profile.CW r), BitVec.ofNat 8 (scale s.cfg.profile.CW g),
   BitVec.ofNat 8 (scale s.cfg.profile.CW b), BitVec.ofNat 8 (scale s.cfg.profile.CW a)]

end Sys2Proof.Machine
end

