-- ==== Sys2Proof/Machine/Alu.lean ====
section
/-!
DEFINITION. The meanings of NOP, MOV and ADD (spec/41_alu.md rules R100 to R103), in both profiles.
-/

namespace Sys2Proof.Machine

/-- `x[rd] <- x[rs]` (rule R101). -/
def State.moveReg (s : State) (rd rs : Nat) : State := s.setReg rd (s.reg rs)

/-- `x[rd] <- (x[rs1] + x[rs2]) mod 2^W`: both sources are read before the write (rules R9 and R102). -/
def State.addRegs (s : State) (rd rs1 rs2 : Nat) : State :=
  s.setReg rd ((s.reg rs1 + s.reg rs2) % 2 ^ s.cfg.profile.W)

/-- NOP, P32 (rule R100). -/
def execNopP32 (s : State) : Host.Outcome State Fault Refusal := s.onProfile .p32 (s.retire none)

/-- NOP, P64 (rule R100). -/
def execNopP64 (s : State) : Host.Outcome State Fault Refusal := s.onProfile .p64 (s.retire none)

/-- MOV, P32 (rule R101). -/
def execMovP32 (rd rs : Nat) (s : State) : Host.Outcome State Fault Refusal :=
  s.onProfile .p32 ((s.moveReg rd rs).retire none)

/-- MOV, P64 (rule R101). -/
def execMovP64 (rd rs : Nat) (s : State) : Host.Outcome State Fault Refusal :=
  s.onProfile .p64 ((s.moveReg rd rs).retire none)

/-- ADD, P32 (rule R102). -/
def execAddP32 (rd rs1 rs2 : Nat) (s : State) : Host.Outcome State Fault Refusal :=
  s.onProfile .p32 ((s.addRegs rd rs1 rs2).retire none)

/-- ADD, P64 (rule R102). -/
def execAddP64 (rd rs1 rs2 : Nat) (s : State) : Host.Outcome State Fault Refusal :=
  s.onProfile .p64 ((s.addRegs rd rs1 rs2).retire none)

end Sys2Proof.Machine
end

