-- ==== Sys2Proof/Machine/Flags.lean ====
section
/-!
DEFINITION. Conditions. The block has no status flags and no condition codes (spec/10_state.md rule R33):
the one condition is BEQ's comparison of two registers, whose result is not kept (rule R131).
-/

namespace Sys2Proof.Machine

/-- The W-bit equality comparator: the full values are equal as unsigned numbers (rules R96 and R131). -/
def State.regsEqual (s : State) (ra rb : Nat) : Bool := decide (s.reg ra = s.reg rb)

end Sys2Proof.Machine
end

