-- ==== Sys2Proof/Machine/Control.lean ====
section
/-!
DEFINITION. The meanings of JMP and BEQ (spec/44_control.md rules R130 to R132), in both profiles: the
only instructions that set pc.
-/

namespace Sys2Proof.Machine

/-- What BEQ returns: the target when the registers are equal, else no target (rule R131). -/
def State.branchIfEqual (s : State) (ra rb : Nat) (off : Int) : Option Nat :=
  if s.regsEqual ra rb then some (s.branchTarget off) else none

/-- JMP, P32 (rule R130). -/
def execJmpP32 (addr : Nat) (s : State) : Host.Outcome State Fault Refusal :=
  s.onProfile .p32 (s.retire (some (jumpTarget addr)))

/-- JMP, P64 (rule R130). -/
def execJmpP64 (addr : Nat) (s : State) : Host.Outcome State Fault Refusal :=
  s.onProfile .p64 (s.retire (some (jumpTarget addr)))

/-- BEQ, P32 (rule R131). -/
def execBeqP32 (ra rb : Nat) (off : Int) (s : State) : Host.Outcome State Fault Refusal :=
  s.onProfile .p32 (s.retire (s.branchIfEqual ra rb off))

/-- BEQ, P64 (rule R131). -/
def execBeqP64 (ra rb : Nat) (off : Int) (s : State) : Host.Outcome State Fault Refusal :=
  s.onProfile .p64 (s.retire (s.branchIfEqual ra rb off))

end Sys2Proof.Machine
end

