-- ==== Sys2Proof/Machine/LoadStore.lean ====
section
/-!
DEFINITION. The meanings of LOAD and STORE (spec/42_load_store.md rules R110 to R112): register-indirect
in P32, direct in P64.
-/

namespace Sys2Proof.Machine

/-- `x[rd] <- MemRead(A, WB)` (rule R110). -/
def State.loadReg (s : State) (rd a : Nat) : State := s.setReg rd (s.memRead a s.cfg.profile.WB)

/-- `MemWrite(A, WB, x[rs])` (rule R111). -/
def State.storeReg (s : State) (rs a : Nat) : State := s.memWrite a s.cfg.profile.WB (s.reg rs)

/-- LOAD rd, [ra], P32 (rule R110): the address is read before rd is written. -/
def execLoadP32 (rd ra : Nat) (s : State) : Host.Outcome State Fault Refusal :=
  s.onProfile .p32 ((s.loadReg rd (s.indirectAddr ra)).retire none)

/-- LOAD rd, [addr], P64 (rule R110). -/
def execLoadP64 (rd addr : Nat) (s : State) : Host.Outcome State Fault Refusal :=
  s.onProfile .p64 ((s.loadReg rd (directAddr addr)).retire none)

/-- STORE rs, [ra], P32 (rule R111). -/
def execStoreP32 (rs ra : Nat) (s : State) : Host.Outcome State Fault Refusal :=
  s.onProfile .p32 ((s.storeReg rs (s.indirectAddr ra)).retire none)

/-- STORE rs, [addr], P64 (rule R111). -/
def execStoreP64 (rs addr : Nat) (s : State) : Host.Outcome State Fault Refusal :=
  s.onProfile .p64 ((s.storeReg rs (directAddr addr)).retire none)

end Sys2Proof.Machine
end

