-- ==== Sys2Proof/Machine/SetPixel.lean ====
section
/-!
DEFINITION. The meaning of SETPIXEL (spec/43_setpixel.md rules R120 and R121), in both profiles.
-/

namespace Sys2Proof.Machine

/-- Write the pixel's four bytes, or nothing when its coordinates are out of range (rule R120). -/
def State.drawPixel (s : State) (x y r g b a : Nat) : State :=
  if s.pixelInRange x y then s.memWriteBytes (s.pixelAddr x y) (s.pixelBytes r g b a) else s

/-- SETPIXEL, P32 (rule R120). -/
def execSetpixelP32 (x y r g b a : Nat) (s : State) : Host.Outcome State Fault Refusal :=
  s.onProfile .p32 ((s.drawPixel x y r g b a).retire none)

/-- SETPIXEL, P64 (rule R120). -/
def execSetpixelP64 (x y r g b a : Nat) (s : State) : Host.Outcome State Fault Refusal :=
  s.onProfile .p64 ((s.drawPixel x y r g b a).retire none)

end Sys2Proof.Machine
end

