-- ==== Sys2Proof/Machine/Unknown.lean ====
section
/-!
DEFINITION. The meaning of every other opcode (spec/40_execution_cycle.md rule R93): an UNKNOWN_OPCODE
event, and otherwise a NOP. One definition for each row of the opcode table.
-/

namespace Sys2Proof.Machine

/-- `emit(warning, UNKNOWN_OPCODE, (op, pc0))` (rule R93). -/
def State.reportUnknown (s : State) (op : Nat) : State := s.emit (Event.unknownOpcode op s.pc)

/-- UNKNOWN, P32, opcodes 8 to 15 (rule R93). -/
def execUnknownP32 (op : Nat) (s : State) : Host.Outcome State Fault Refusal :=
  s.onProfile .p32 ((s.reportUnknown op).retire none)

/-- UNKNOWN, P64, opcodes 8 to 15 (rule R93). -/
def execUnknown8P64 (op : Nat) (s : State) : Host.Outcome State Fault Refusal :=
  s.onProfile .p64 ((s.reportUnknown op).retire none)

/-- UNKNOWN, P64, opcodes 16 to 31 (rule R93). -/
def execUnknown16P64 (op : Nat) (s : State) : Host.Outcome State Fault Refusal :=
  s.onProfile .p64 ((s.reportUnknown op).retire none)

/-- UNKNOWN, P64, opcodes 32 to 63 (rule R93). -/
def execUnknown32P64 (op : Nat) (s : State) : Host.Outcome State Fault Refusal :=
  s.onProfile .p64 ((s.reportUnknown op).retire none)

/-- UNKNOWN, P64, opcodes 64 to 127 (rule R93). -/
def execUnknown64P64 (op : Nat) (s : State) : Host.Outcome State Fault Refusal :=
  s.onProfile .p64 ((s.reportUnknown op).retire none)

/-- UNKNOWN, P64, opcodes 128 to 255 (rule R93). -/
def execUnknown128P64 (op : Nat) (s : State) : Host.Outcome State Fault Refusal :=
  s.onProfile .p64 ((s.reportUnknown op).retire none)

end Sys2Proof.Machine
end

