-- ==== Sys2Proof/Machine/Dispatch.lean ====
section
/-!
DEFINITION. The dispatch table (spec/30_encoding.md rule R68): one arm for each constructor of Instr. An
arm runs the instruction and ends the step (spec/40_execution_cycle.md rule R91: execute, pc update, halt
check).
-/

namespace Sys2Proof.Machine

def exec (i : Instr) (s : State) : Host.Outcome State Fault Refusal :=
  match i with
  | .nopP32 => Sys2Proof.Machine.execNopP32 s
  | .movP32 rd rs => Sys2Proof.Machine.execMovP32 rd rs s
  | .addP32 rd rs1 rs2 => Sys2Proof.Machine.execAddP32 rd rs1 rs2 s
  | .loadP32 rd ra => Sys2Proof.Machine.execLoadP32 rd ra s
  | .storeP32 rs ra => Sys2Proof.Machine.execStoreP32 rs ra s
  | .setpixelP32 x y r g b a => Sys2Proof.Machine.execSetpixelP32 x y r g b a s
  | .jmpP32 addr => Sys2Proof.Machine.execJmpP32 addr s
  | .beqP32 ra rb off => Sys2Proof.Machine.execBeqP32 ra rb off s
  | .unknownP32 op => Sys2Proof.Machine.execUnknownP32 op s
  | .nopP64 => Sys2Proof.Machine.execNopP64 s
  | .movP64 rd rs => Sys2Proof.Machine.execMovP64 rd rs s
  | .addP64 rd rs1 rs2 => Sys2Proof.Machine.execAddP64 rd rs1 rs2 s
  | .loadP64 rd addr => Sys2Proof.Machine.execLoadP64 rd addr s
  | .storeP64 rs addr => Sys2Proof.Machine.execStoreP64 rs addr s
  | .setpixelP64 x y r g b a => Sys2Proof.Machine.execSetpixelP64 x y r g b a s
  | .jmpP64 addr => Sys2Proof.Machine.execJmpP64 addr s
  | .beqP64 ra rb off => Sys2Proof.Machine.execBeqP64 ra rb off s
  | .unknown8P64 op => Sys2Proof.Machine.execUnknown8P64 op s
  | .unknown16P64 op => Sys2Proof.Machine.execUnknown16P64 op s
  | .unknown32P64 op => Sys2Proof.Machine.execUnknown32P64 op s
  | .unknown64P64 op => Sys2Proof.Machine.execUnknown64P64 op s
  | .unknown128P64 op => Sys2Proof.Machine.execUnknown128P64 op s

end Sys2Proof.Machine
end

