-- ==== Sys2Proof/Machine/Placement.lean ====
section
/-!
DEFINITION. Placing one instruction word where a block fetches next: what `State.withFetchWord` is made of.
It stands for the host's `load` and `start` (spec/70_reset_and_hazards.md rule R174).
-/

namespace Sys2Proof.Machine

/-- The profile a word of `nbits` bits belongs to (rule R60). -/
def placementProfile (nbits : Nat) : Profile := if nbits ≤ 32 then .p32 else .p64

/-- The block of profile `p` that takes the place of `s`: parameters are fixed at construction (rule R6), so
another profile is another block, constructed as rule R5's table says, which keeps from `s` what it has
room for: the registers both have, pc and the memory bytes below its S, the control state and the events. -/
def State.asProfile (s : State) (p : Profile) : State :=
  if s.cfg.profile = p then s
  else
    let new : State :=
      { State.construct (Config.standard p) with
        mem := s.mem.filter (fun c => decide (c.1 < p.defaultS))
        runState := s.runState
        loaded := s.loaded
        events := s.events }
    ((List.range 16).foldl (fun t i => t.setReg i (s.reg i)) new).setPc
      (if s.pc < p.defaultS then s.pc else 0)

/-- Ready to step: Running with a program loaded, as Running implies (rule R149), at a pc whose IB bytes are
in bounds. -/
def State.readyToFetch (s : State) : State :=
  let t := (s.setRunState .running).setLoaded
  if t.inBounds t.pc t.cfg.profile.IB then t else t.setPc 0

/-- Store the word at pc, as `load` stores a word (rule R172), in a block ready to step. -/
def State.placeWord (s : State) (nbits w : Nat) : State :=
  let t := (s.asProfile (placementProfile nbits)).readyToFetch
  t.memWrite t.pc t.cfg.profile.IB (w % 2 ^ nbits)

end Sys2Proof.Machine
end

