-- ==== Sys2Proof/Machine/Step.lean ====
section
/-!
DEFINITION. The host command `step()` (spec/40_execution_cycle.md rules R90 and R91), and the state whose
next step runs a given word.
-/

namespace Sys2Proof.Machine

/-- `step()`: a no-op unless Running; else fetch, decode and execute one instruction. -/
def step (s : State) : Host.Outcome State Fault Refusal :=
  match s.runState with
  | .running => exec s.fetchInstr s
  | .idle => .next s
  | .paused => .next s
  | .halted => .next s

/-- `s` with the word `w` of `nbits` bits where the next step fetches it, and ready to run it. -/
def State.withFetchWord (s : State) (nbits w : Nat) : State := s.placeWord nbits w

end Sys2Proof.Machine
end

