-- ==== Sys2Proof/Machine/Assembler.lean ====
section
/-!
DEFINITION. The spec's own assembler (spec/30_encoding.md rules R80 to R82): the text syntax, labels, label
offsets, `.word` and the pseudo-instructions. It is no part of the block; it says which words a program text
stands for.
-/

namespace Sys2Proof.Machine

/-! ### Lines and their words -/

/-- A label's name, as its characters. -/
abbrev AsmName := List Char

/-- A branch offset as rule R80 writes it: a signed number of bytes, or a label. -/
inductive AsmOffset where
  | bytes (off : Int)
  | label (name : AsmName)
  deriving DecidableEq, Repr

/-- A line of assembly (rules R80 and R82). -/
inductive AsmLine where
  /-- `label:` names the address of the next line. -/
  | label (name : AsmName)
  /-- An instruction other than a branch to a label. -/
  | instr (i : Instr)
  /-- `BEQ ra, rb, off`. -/
  | beq (ra rb : Nat) (off : AsmOffset)
  /-- `BRA off`. -/
  | bra (off : AsmOffset)
  /-- `DATA v`. -/
  | data (v : Nat)
  /-- `HALT`. -/
  | halt
  /-- `.word v`. -/
  | word (v : Nat)
  deriving DecidableEq, Repr

/-- The addresses the labels name, for lines from address `a` on. -/
def asmLabels (p : Profile) (a : Nat) : List AsmLine → List (AsmName × Nat)
  | [] => []
  | .label l :: ls => (l, a) :: asmLabels p a ls
  | _ :: ls => asmLabels p (a + p.IB) ls

/-- A label stands for `L - (address of this BEQ)` (rule R80). -/
def asmOffset (labels : List (AsmName × Nat)) (a : Nat) : AsmOffset → Option Int
  | .bytes off => some off
  | .label l => (labels.lookup l).map (fun t => (t : Int) - (a : Int))

/-- BEQ of the profile. -/
def beqOf : Profile → Nat → Nat → Int → Instr
  | .p32, ra, rb, off => .beqP32 ra rb off
  | .p64, ra, rb, off => .beqP64 ra rb off

/-- The word of an instruction of the profile; an operand that does not fit its field is refused (rule R81). -/
def asmInstr (p : Profile) (i : Instr) : Option Nat :=
  if i.profile = p ∧ i.wf = true then some (encode i) else none

/-- The word of a line at address `a`; the inner `none` is a line that has no word. -/
def asmLine (p : Profile) (labels : List (AsmName × Nat)) (a : Nat) : AsmLine → Option (Option Nat)
  | .label _ => some none
  | .instr i => (asmInstr p i).map some
  | .beq ra rb off => ((asmOffset labels a off).bind (fun o => asmInstr p (beqOf p ra rb o))).map some
  | .bra off => ((asmOffset labels a off).bind (fun o => asmInstr p (braInstr p o))).map some
  | .data v => (dataWord p v).map some
  | .halt => (asmInstr p (haltInstr p)).map some
  | .word v => if v < 2 ^ p.IW then some (some v) else none

/-- The words of the lines from address `a` on. -/
def asmFrom (p : Profile) (labels : List (AsmName × Nat)) (a : Nat) : List AsmLine → Option (List Nat)
  | [] => some []
  | l :: ls =>
    match asmLine p labels a l with
    | none => none
    | some none => asmFrom p labels a ls
    | some (some w) => (asmFrom p labels (a + p.IB) ls).map (fun ws => w :: ws)

/-- The words of a program whose first word is at address 0. -/
def assemble (p : Profile) (ls : List AsmLine) : Option (List Nat) :=
  asmFrom p (asmLabels p 0 ls) 0 ls

/-- The file bytes of a list of words in a file order (rule R172). -/
def fileOfWords (p : Profile) (order : FileOrder) (ws : List Nat) : List Byte :=
  ws.flatMap (fun w =>
    match order with
    | .big => (leBytes p.WB w).reverse
    | .little => leBytes p.WB w)

/-! ### The text syntax of rule R80 -/

/-- What a line of text is made of. -/
inductive AsmToken where
  | word (cs : List Char)
  | comma
  | colon
  | openBracket
  | closeBracket
  deriving DecidableEq, Repr

/-- The lines of a text. -/
def asmSplit : List Char → List (List Char)
  | [] => [[]]
  | c :: cs =>
    if c = '\n' then [] :: asmSplit cs
    else
      match asmSplit cs with
      | [] => [[c]]
      | l :: ls => (c :: l) :: ls

/-- The word gathered so far, last character first, before the tokens that follow it. -/
def asmFlush (acc : List Char) (ts : List AsmToken) : List AsmToken :=
  if acc.isEmpty then ts else .word acc.reverse :: ts

/-- The tokens of a line; `; text` is a comment. -/
def asmTokens (acc : List Char) : List Char → List AsmToken
  | [] => asmFlush acc []
  | c :: cs =>
    if c = ';' then asmFlush acc []
    else if c = ',' then asmFlush acc (.comma :: asmTokens [] cs)
    else if c = ':' then asmFlush acc (.colon :: asmTokens [] cs)
    else if c = '[' then asmFlush acc (.openBracket :: asmTokens [] cs)
    else if c = ']' then asmFlush acc (.closeBracket :: asmTokens [] cs)
    else if c = ' ' ∨ c = '\t' ∨ c = '\r' then asmFlush acc (asmTokens [] cs)
    else asmTokens (c :: acc) cs

/-- The value of a digit of base 10 or 16. -/
def asmDigit (base : Nat) (c : Char) : Option Nat :=
  let n := c.toNat
  let v := if 48 ≤ n ∧ n ≤ 57 then n - 48
    else if 97 ≤ n ∧ n ≤ 102 then n - 87
    else if 65 ≤ n ∧ n ≤ 70 then n - 55
    else 16
  if v < base then some v else none

/-- Digits after the value `acc` of those before them. -/
def asmDigits (base acc : Nat) : List Char → Option Nat
  | [] => some acc
  | c :: cs => (asmDigit base c).bind (fun v => asmDigits base (base * acc + v) cs)

/-- A decimal number. -/
def asmDecimal (cs : List Char) : Option Nat := if cs.isEmpty then none else asmDigits 10 0 cs

/-- A number: decimal or `0x` hex. -/
def asmNumber : List Char → Option Nat
  | '0' :: 'x' :: cs => if cs.isEmpty then none else asmDigits 16 0 cs
  | cs => asmDecimal cs

/-- A register name `r0` to `r<N-1>`; an index that no field holds is refused with its instruction. -/
def asmRegister : List Char → Option Nat
  | 'r' :: cs => asmDecimal cs
  | _ => none

/-- A branch offset: a signed decimal number of bytes, or else a label. -/
def asmOffsetText : List Char → Option AsmOffset
  | '-' :: cs => (asmDecimal cs).map (fun v => .bytes (-(v : Int)))
  | '+' :: cs => (asmDecimal cs).map (fun v => .bytes (v : Int))
  | [] => none
  | c :: cs =>
    if (asmDigit 10 c).isSome then (asmDecimal (c :: cs)).map (fun v => .bytes (v : Int))
    else some (.label (c :: cs))

/-- The NOP of the profile. -/
def nopOf : Profile → Instr
  | .p32 => .nopP32
  | .p64 => .nopP64

/-- The MOV of the profile. -/
def movOf : Profile → Nat → Nat → Instr
  | .p32, rd, rs => .movP32 rd rs
  | .p64, rd, rs => .movP64 rd rs

/-- The ADD of the profile. -/
def addOf : Profile → Nat → Nat → Nat → Instr
  | .p32, rd, rs1, rs2 => .addP32 rd rs1 rs2
  | .p64, rd, rs1, rs2 => .addP64 rd rs1 rs2

/-- The JMP of the profile. -/
def jmpOf : Profile → Nat → Instr
  | .p32, addr => .jmpP32 addr
  | .p64, addr => .jmpP64 addr

/-- The SETPIXEL of the profile. -/
def setpixelOf : Profile → Nat → Nat → Nat → Nat → Nat → Nat → Instr
  | .p32, x, y, r, g, b, a => .setpixelP32 x y r g b a
  | .p64, x, y, r, g, b, a => .setpixelP64 x y r g b a

/-- `LOAD rd, [ra]` in P32, `LOAD rd, [addr]` in P64. -/
def loadOf : Profile → Nat → List Char → Option Instr
  | .p32, rd, src => (asmRegister src).map (fun ra => .loadP32 rd ra)
  | .p64, rd, src => (asmNumber src).map (fun addr => .loadP64 rd addr)

/-- `STORE rs, [ra]` in P32, `STORE rs, [addr]` in P64. -/
def storeOf : Profile → Nat → List Char → Option Instr
  | .p32, rs, dst => (asmRegister dst).map (fun ra => .storeP32 rs ra)
  | .p64, rs, dst => (asmNumber dst).map (fun addr => .storeP64 rs addr)

/-- The line of a mnemonic and its operands; none where it is no line of rules R80 and R82. -/
def asmStatement (p : Profile) : List AsmToken → Option AsmLine
  | [.word m] =>
    if m = ['N', 'O', 'P'] then some (.instr (nopOf p))
    else if m = ['H', 'A', 'L', 'T'] then some .halt
    else none
  | [.word m, .word a] =>
    if m = ['J', 'M', 'P'] then (asmNumber a).map (fun v => .instr (jmpOf p v))
    else if m = ['B', 'R', 'A'] then (asmOffsetText a).map .bra
    else if m = ['D', 'A', 'T', 'A'] then (asmNumber a).map .data
    else if m = ['.', 'w', 'o', 'r', 'd'] then (asmNumber a).map .word
    else none
  | [.word m, .word a, .comma, .word b] =>
    if m = ['M', 'O', 'V'] then
      (asmRegister a).bind (fun rd => (asmRegister b).map (fun rs => .instr (movOf p rd rs)))
    else none
  | [.word m, .word a, .comma, .openBracket, .word b, .closeBracket] =>
    if m = ['L', 'O', 'A', 'D'] then (asmRegister a).bind (fun rd => (loadOf p rd b).map .instr)
    else if m = ['S', 'T', 'O', 'R', 'E'] then (asmRegister a).bind (fun rs => (storeOf p rs b).map .instr)
    else none
  | [.word m, .word a, .comma, .word b, .comma, .word c] =>
    if m = ['A', 'D', 'D'] then
      (asmRegister a).bind (fun rd => (asmRegister b).bind (fun rs1 =>
        (asmRegister c).map (fun rs2 => .instr (addOf p rd rs1 rs2))))
    else if m = ['B', 'E', 'Q'] then
      (asmRegister a).bind (fun ra => (asmRegister b).bind (fun rb =>
        (asmOffsetText c).map (fun off => .beq ra rb off)))
    else none
  | [.word m, .word x, .comma, .word y, .comma, .word r, .comma, .word g, .comma, .word b, .comma, .word a] =>
    if m = ['S', 'E', 'T', 'P', 'I', 'X', 'E', 'L'] then
      (asmNumber x).bind (fun x => (asmNumber y).bind (fun y => (asmNumber r).bind (fun r =>
        (asmNumber g).bind (fun g => (asmNumber b).bind (fun b =>
          (asmNumber a).map (fun a => .instr (setpixelOf p x y r g b a)))))))
    else none
  | _ => none

/-- The lines of one line of text: its labels, then its instruction, if it has one. -/
def asmParseLine (p : Profile) : List AsmToken → Option (List AsmLine)
  | [] => some []
  | .word l :: .colon :: ts => (asmParseLine p ts).map (fun ls => .label l :: ls)
  | ts => (asmStatement p ts).map (fun l => [l])

/-- The lines of a program text; none where some line is not in the syntax. -/
def asmParse (p : Profile) (text : List Char) : Option (List AsmLine) :=
  ((asmSplit text).mapM (fun l => asmParseLine p (asmTokens [] l))).map List.flatten

/-- The words of a program text. -/
def assembleText (p : Profile) (text : List Char) : Option (List Nat) := (asmParse p text).bind (assemble p)

end Sys2Proof.Machine
end

