-- ==== Sys2Proof/Machine/Commands.lean ====
section
/-!
DEFINITION. The host's side of the block: the commands `load`, `start`, `pause`, `stop` and `step` and the
run-state machine (spec/60_exceptions.md rules R145 to R150, spec/70_reset_and_hazards.md rule R172), the
framebuffer view (spec/20_memory.md rule R44), the snapshot and the draining of the event FIFO.
-/

namespace Sys2Proof.Machine

/-! ### The commands -/

/-- `start()`: from any run-state, refused with an event before any load (rule R146, spec/90_conflicts.md C3). -/
def State.start (s : State) : State :=
  if s.loaded then s.setRunState .running else s.emit Event.programNotLoaded

/-- `pause()`: from any run-state (rule R147, spec/90_conflicts.md C4). -/
def State.pause (s : State) : State := (s.setRunState .paused).emit Event.paused

/-- `stop()`: from any run-state (rule R148). -/
def State.stop (s : State) : State := s.stopWith .host

/-- The value of one file word, its bytes in file order (rule R172). -/
def fileWordValue (order : FileOrder) (c : List Byte) : Nat :=
  match order with
  | .big => leValue c.reverse
  | .little => leValue c

/-- The number of words of a file of `len` bytes: `ceil(len / WB)` (rule R172). -/
def fileWordCount (wb len : Nat) : Nat := (len + wb - 1) / wb

/-- The file with its trailing partial word zero-padded (rule R172, spec/90_conflicts.md C6). -/
def padFile (wb : Nat) (bs : List Byte) : List Byte :=
  bs ++ List.replicate (fileWordCount wb bs.length * wb - bs.length) 0

/-- The k-th word of a padded file. -/
def fileWord (wb : Nat) (p : List Byte) (k : Nat) : List Byte := (p.drop (k * wb)).take wb

/-- Store the first `n` words of a padded file, word k at k*WB; a word that is out of bounds is dropped
(rules R50 and R172). -/
def State.loadWords (s : State) (p : List Byte) : Nat → State
  | 0 => s
  | n + 1 =>
    let t := s.loadWords p n
    t.memWrite (n * s.cfg.profile.WB) s.cfg.profile.WB
      (fileWordValue s.cfg.fileOrder (fileWord s.cfg.profile.WB p n))

/-- `load(bs)`, in any run-state (rules R172 and R173). -/
def State.load (s : State) (bs : List Byte) : State :=
  ((s.loadWords (padFile s.cfg.profile.WB bs) (fileWordCount s.cfg.profile.WB bs.length)).setLoaded).emit
    (Event.loaded bs.length)

/-- The five commands the host may issue (rule R145). -/
inductive Command where
  | load (bs : List Byte)
  | start
  | pause
  | stop
  | step
  deriving DecidableEq, Repr

/-- One host command, atomic and between two steps (rules R53 and R145). -/
def State.command (s : State) : Command → Host.Outcome State Fault Refusal
  | .load bs => .next (s.load bs)
  | .start => .next s.start
  | .pause => .next s.pause
  | .stop => .next s.stop
  | .step => Sys2Proof.Machine.step s

/-- A run: a sequence of commands, in the order the host issues them (rule R53, decision D20). -/
def State.runCommands (s : State) : List Command → Host.Outcome State Fault Refusal
  | [] => .next s
  | c :: cs =>
    match s.command c with
    | .next t => t.runCommands cs
    | .fault r => .fault r
    | .refused r => .refused r

/-! ### What the host reads -/

/-- The handle `framebuffer_view(base, width, height)` gives (rule R44): no bytes of its own. -/
structure View where
  base : Nat
  width : Nat
  height : Nat
  deriving DecidableEq, Repr

/-- The address the view maps pixel byte (x, y, c) to: `base + y*width*4 + x*4 + c` (rule R44). A triple
outside the view names no byte. -/
def View.addr (v : View) (x y c : Nat) : Option Nat :=
  if x < v.width ∧ y < v.height ∧ c < 4 then some (v.base + y * v.width * 4 + x * 4 + c) else none

/-- A read through the view is a read of M (rules R44 and R45). -/
def State.viewRead (s : State) (v : View) (x y c : Nat) : Option Nat :=
  (v.addr x y c).map (fun a => s.memRead a 1)

/-- A write through the view is a write to M (rules R44 and R45). -/
def State.viewWrite (s : State) (v : View) (x y c : Nat) (b : Byte) : State :=
  match v.addr x y c with
  | some a => s.memWriteBytes a [b]
  | none => s

/-- The presenter's view: base FB_BASE, width FB_W, height FB_H (rule R44). -/
def State.framebuffer (s : State) : View := ⟨s.cfg.fbBase, s.cfg.fbW, s.cfg.fbH⟩

/-- What the snapshot accessor gives: pc, the registers and the framebuffer bytes in address order. -/
structure Snapshot where
  pc : Nat
  registers : List Nat
  framebuffer : List Byte
  deriving DecidableEq, Repr

/-- The snapshot read port (rule R34): it changes nothing. All N registers are given, since which of them a
presenter shows is presentation (decision D22; DEDUCED, notes/assumptions/14.md). -/
def State.snapshot (s : State) : Snapshot :=
  { pc := s.pc
    registers := (List.range s.cfg.profile.N).map s.reg
    framebuffer := (List.range (s.cfg.fbW * s.cfg.fbH * 4)).map (fun k => s.byteAt (s.cfg.fbBase + k)) }

/-- The host takes the `n` oldest events off the FIFO (rules R31 and R145): a host action outside the block,
which no command performs. -/
def State.drain (s : State) (n : Nat) : List Event × State :=
  (s.events.take n, { s with events := s.events.drop n })

end Sys2Proof.Machine
end

