-- ==== Sys2Proof/Safety.lean ====
section
/-!
DEFINITION. What counts as a safe state and a safe run: the facts the spec says hold of every block
between two commands.
-/

namespace Sys2Proof.Machine

/-- The event has the severity and the form of info that rule R141 gives its kind. -/
def Event.legal (e : Event) : Bool :=
  match e.kind, e.severity, e.info with
  | .loaded, .success, .byteCount _ => true
  | .programNotLoaded, .error, .noInfo => true
  | .paused, .warning, .noInfo => true
  | .stopped, .error, .cause _ => true
  | .unknownOpcode, .warning, .opcodeAt _ _ => true
  | _, _, _ => false

/-- The invariant of a block between two commands. -/
structure State.Inv (s : State) : Prop where
  /-- The configuration meets rule R6. -/
  cfg_valid : s.cfg.Valid
  /-- `pc < S` (rule R25). -/
  pc_lt : s.pc < s.cfg.S
  /-- Memory is in its canonical form. -/
  mem_wf : s.mem.wf = true
  /-- No byte beyond `M[S-1]` exists (rule R27). -/
  mem_within : s.mem.within s.cfg.S = true
  /-- Running implies loaded (rule R149). -/
  running_loaded : s.runState = .running → s.loaded = true
  /-- Entering Halted set pc to 0 and nothing moves it there (rules R148, R150 and R157). -/
  halted_pc : s.runState = .halted → s.pc = 0
  /-- An Idle block has not moved from its entry point (rules R32 and R90). -/
  idle_pc : s.runState = .idle → s.pc = 0
  /-- Every event is one of rule R141's. -/
  events_legal : s.events.all Event.legal = true

/-- A run of host commands is safe: it ends in a next state, and the invariant holds there. -/
def SafeRun (s : State) (cs : List Command) : Prop :=
  ∃ t, s.runCommands cs = .next t ∧ t.Inv

end Sys2Proof.Machine
end

