-- ==== Sys2Proof/Certificates/Slice0/Obligations.lean ====
section
/-!
DEFINITION. The statements about the model. Rules R<n> are those of spec/. The helpers of Sys2Proof.Claims say
what a next state keeps and how a step ends.
-/

namespace Sys2Proof.Claims

open Sys2Proof.Machine

/-- Every register is unchanged. -/
def SameRegs (s t : State) : Prop := ∀ j, j < s.cfg.profile.N → t.reg j = s.reg j

/-- Every register but `rd` is unchanged. -/
def SameRegsBut (rd : Nat) (s t : State) : Prop := ∀ j, j < s.cfg.profile.N → j ≠ rd → t.reg j = s.reg j

/-- Every byte of memory is unchanged. -/
def SameBytes (s t : State) : Prop := ∀ b, t.byteAt b = s.byteAt b

/-- Every byte of memory outside the `k` bytes from `a` on is unchanged. -/
def SameBytesOutside (a k : Nat) (s t : State) : Prop := ∀ b, b < a ∨ a + k ≤ b → t.byteAt b = s.byteAt b

/-- How a step from `s` ends in `t` when the instruction emitted `evs` and its pc update aims at `target`
(rules R91, R92 and R150): pc is the target, or, when the target is at or beyond S, the forced halt. The
configuration and `loaded` never change (rule R97). -/
def Ends (s t : State) (evs : List Event) (target : Nat) : Prop :=
  t.cfg = s.cfg ∧ t.loaded = s.loaded ∧
  (target < s.cfg.S → t.pc = target ∧ t.runState = s.runState ∧ t.events = s.events ++ evs) ∧
  (s.cfg.S ≤ target → t.pc = 0 ∧ t.runState = .halted ∧
    t.events = s.events ++ evs ++ [⟨.error, .stopped, .cause .memoryExhausted⟩])

/-- The little-endian number of the `k` bytes from `a` on (rule R41). -/
def littleEndian (s : State) (a k : Nat) : Nat :=
  ∑ j ∈ Finset.range k, (s.byteAt (a + j)).toNat * 2 ^ (8 * j)

/-- The `k` bytes from `a` on are the bytes of `v`, lowest first, and no other byte changed; or, out of bounds,
no byte changed at all (rule R42). -/
def Stored (a k v : Nat) (s t : State) : Prop :=
  (a + k ≤ s.cfg.S → (∀ j, j < k → t.byteAt (a + j) = BitVec.ofNat 8 (v / 2 ^ (8 * j))) ∧
    SameBytesOutside a k s t) ∧
  (s.cfg.S < a + k → SameBytes s t)

/-- Pixel (x, y) holds the four bytes and no other byte changed; or, out of the framebuffer, no byte changed at
all (rule R120). The pixel's bytes begin at `FB_BASE + y*FB_W*4 + x*4` (rule R28). -/
def Drawn (x y : Nat) (r g b a : Byte) (s t : State) : Prop :=
  (x < s.cfg.fbW ∧ y < s.cfg.fbH →
    t.byteAt (s.cfg.fbBase + y * s.cfg.fbW * 4 + x * 4) = r ∧
    t.byteAt (s.cfg.fbBase + y * s.cfg.fbW * 4 + x * 4 + 1) = g ∧
    t.byteAt (s.cfg.fbBase + y * s.cfg.fbW * 4 + x * 4 + 2) = b ∧
    t.byteAt (s.cfg.fbBase + y * s.cfg.fbW * 4 + x * 4 + 3) = a ∧
    SameBytesOutside (s.cfg.fbBase + y * s.cfg.fbW * 4 + x * 4) 4 s t) ∧
  (¬(x < s.cfg.fbW ∧ y < s.cfg.fbH) → SameBytes s t)

/-- What rule R131 says of a taken and of a not-taken BEQ at `pc0` with the next instruction at `pc0 + ib`. -/
def Branched (ra rb : Nat) (off : Int) (ib : Nat) (s t : State) : Prop :=
  (s.reg ra = s.reg rb → (t.pc : Int) = ((s.pc : Int) + off) % (s.cfg.S : Int) ∧
    Ends s t [] t.pc ∧ t.runState = s.runState) ∧
  (s.reg ra ≠ s.reg rb → Ends s t [] (s.pc + ib))

/-- Rule R93 for one row of the opcode table: opcodes `lo` to `hi` of profile `p`, whose constructor is `row`
and whose opcode field stands above `low` ignored bits. -/
def UnknownRow (p : Profile) (row : Nat → Instr) (lo hi low : Nat) : Prop :=
  ∀ (s : State) (k d : Nat), s.cfg.profile = p → s.cfg.Valid → lo ≤ k → k ≤ hi → d < 2 ^ low →
    decodeWord p (2 ^ low * k + d) = row k ∧
    ∃ t, exec (row k) s = .next t ∧ SameRegs s t ∧ SameBytes s t ∧
      Ends s t [⟨.warning, .unknownOpcode, .opcodeAt k s.pc⟩] (s.pc + p.IB)

/-- The displacement of a BEQ whose operand is the signed number `off`: the number itself, or, in a configuration
that reads the offset field unsigned, the field (spec/93_implementation_defined.md I3, notes/assumptions/22.md). -/
def displacement (c : Config) (off : Int) : Int :=
  match c.offsetReading with
  | .signed => off
  | .unsigned => off % 2 ^ c.profile.BOW

/-- The pc an instruction sets itself, if it does (rule R92): JMP and a taken BEQ alone. -/
def pcSet : Instr → State → Option Nat
  | .jmpP32 addr, _ | .jmpP64 addr, _ => some addr
  | .beqP32 ra rb off, s | .beqP64 ra rb off, s =>
    if s.reg ra = s.reg rb then some (((s.pc : Int) + displacement s.cfg off) % (s.cfg.S : Int)).toNat else none
  | .nopP32, _ | .nopP64, _ | .movP32 _ _, _ | .movP64 _ _, _ | .addP32 _ _ _, _ | .addP64 _ _ _, _ => none
  | .loadP32 _ _, _ | .loadP64 _ _, _ | .storeP32 _ _, _ | .storeP64 _ _, _ => none
  | .setpixelP32 _ _ _ _ _ _, _ | .setpixelP64 _ _ _ _ _ _, _ => none
  | .unknownP32 _, _ | .unknown8P64 _, _ | .unknown16P64 _, _ | .unknown32P64 _, _ => none
  | .unknown64P64 _, _ | .unknown128P64 _, _ => none

/-- The register an instruction writes, if any (rule R97): the destination of MOV, ADD and LOAD. -/
def regWritten : Instr → Option Nat
  | .movP32 rd _ | .movP64 rd _ | .addP32 rd _ _ | .addP64 rd _ _ | .loadP32 rd _ | .loadP64 rd _ => some rd
  | .nopP32 | .nopP64 | .storeP32 _ _ | .storeP64 _ _ | .jmpP32 _ | .jmpP64 _ | .beqP32 _ _ _ => none
  | .beqP64 _ _ _ | .setpixelP32 _ _ _ _ _ _ | .setpixelP64 _ _ _ _ _ _ | .unknownP32 _ => none
  | .unknown8P64 _ | .unknown16P64 _ | .unknown32P64 _ | .unknown64P64 _ | .unknown128P64 _ => none

/-- The address and the number of the bytes an instruction writes, if any (rule R97): a word at STORE's address
when it is in bounds, and the pixel's four bytes when SETPIXEL's coordinates are in range. -/
def bytesWritten : Instr → State → Option (Nat × Nat)
  | .storeP32 _ ra, s => if s.reg ra + 4 ≤ s.cfg.S then some (s.reg ra, 4) else none
  | .storeP64 _ addr, s => if addr + 8 ≤ s.cfg.S then some (addr, 8) else none
  | .setpixelP32 x y _ _ _ _, s | .setpixelP64 x y _ _ _ _, s =>
    if x < s.cfg.fbW ∧ y < s.cfg.fbH then some (s.cfg.fbBase + y * s.cfg.fbW * 4 + x * 4, 4) else none
  | .nopP32, _ | .nopP64, _ | .movP32 _ _, _ | .movP64 _ _, _ | .addP32 _ _ _, _ | .addP64 _ _ _, _ => none
  | .loadP32 _ _, _ | .loadP64 _ _, _ | .jmpP32 _, _ | .jmpP64 _, _ | .beqP32 _ _ _, _ | .beqP64 _ _ _, _ => none
  | .unknownP32 _, _ | .unknown8P64 _, _ | .unknown16P64 _, _ | .unknown32P64 _, _ => none
  | .unknown64P64 _, _ | .unknown128P64 _, _ => none

/-- The state with other control state, which no instruction can read (rule R34). -/
def withControl (s : State) (r : RunState) (l : Bool) (es : List Event) : State :=
  { s with runState := r, loaded := l, events := es }

/-- Byte `j` of the k-th word of a file in file order, zero-padded past its end (rule R172). -/
def fileByte (bs : List Byte) (wb k j : Nat) : Byte := (bs[k * wb + j]?).getD 0

/-- The place in the file word of the byte that memory holds at offset `j` of the word (rule R172). -/
def filePlace (order : FileOrder) (wb j : Nat) : Nat :=
  match order with
  | .big => wb - 1 - j
  | .little => j

end Sys2Proof.Claims

open Sys2Proof Sys2Proof.Machine Sys2Proof.Claims

/-! ### Encoding -/

/-- Words written out from the layouts of rules R63 and R64 (most of them stand in spec/95_test_vectors.md)
decode to the instructions they stand for. -/
def Obligations.SpecWordsDecode : Prop :=
  decodeTableWord 32 0x0FFFFFFF = some .nopP32 ∧
  decodeTableWord 32 0x15700000 = some (.movP32 5 7) ∧
  decodeTableWord 32 0x23120000 = some (.addP32 3 1 2) ∧
  decodeTableWord 32 0x32100000 = some (.loadP32 2 1) ∧
  decodeTableWord 32 0x42100000 = some (.storeP32 2 1) ∧
  decodeTableWord 32 0x528AF00F = some (.setpixelP32 10 10 15 0 0 15) ∧
  decodeTableWord 32 0x60000010 = some (.jmpP32 16) ∧
  decodeTableWord 32 0x700FFFF8 = some (.beqP32 0 0 (-8)) ∧
  decodeTableWord 32 0x80000000 = some (.unknownP32 8) ∧
  decodeTableWord 64 0x0203010200000000 = some (.addP64 3 1 2) ∧
  decodeTableWord 64 0x03020003FFFFFFF8 = some (.loadP64 2 (2 ^ 34 - 8)) ∧
  decodeTableWord 64 0x0503F03F01020304 = some (.setpixelP64 63 63 1 2 3 4) ∧
  decodeTableWord 64 0x070102FFFFFFFFE8 = some (.beqP64 1 2 (-24)) ∧
  decodeTableWord 64 0xFF00000000000000 = some (.unknown128P64 255)

/-- Every well-formed instruction's bytes decode to it, whatever bytes follow them. -/
def Obligations.EncodedBytesDecodeBack : Prop :=
  ∀ (i : Instr) (rest : List Byte), i.wf = true →
    decodeBytes i.profile (encodeBytes i ++ rest) = .ok (i, rest)

/-- Rule R81 (which the spec marks as derived): the encoding formulas as shifts and ors, the refusal of an operand that does not fit, and the
rule's examples. -/
def Obligations.EncodingFollowsShiftFormulas : Prop :=
  (encode .nopP32 = 0 ∧ encode .nopP64 = 0) ∧
  (∀ rd rs : Nat, rd < 16 → rs < 16 → encode (.movP32 rd rs) = 1 <<< 28 ||| rd <<< 24 ||| rs <<< 20) ∧
  (∀ rd rs : Nat, rd < 256 → rs < 256 → encode (.movP64 rd rs) = 1 <<< 56 ||| rd <<< 48 ||| rs <<< 40) ∧
  (∀ rd rs1 rs2 : Nat, rd < 16 → rs1 < 16 → rs2 < 16 →
    encode (.addP32 rd rs1 rs2) = 2 <<< 28 ||| rd <<< 24 ||| rs1 <<< 20 ||| rs2 <<< 16) ∧
  (∀ rd rs1 rs2 : Nat, rd < 256 → rs1 < 256 → rs2 < 256 →
    encode (.addP64 rd rs1 rs2) = 2 <<< 56 ||| rd <<< 48 ||| rs1 <<< 40 ||| rs2 <<< 32) ∧
  (∀ rd ra : Nat, rd < 16 → ra < 16 → encode (.loadP32 rd ra) = 3 <<< 28 ||| rd <<< 24 ||| ra <<< 20) ∧
  (∀ rd addr : Nat, rd < 256 → addr < 2 ^ 48 → encode (.loadP64 rd addr) = 3 <<< 56 ||| rd <<< 48 ||| addr) ∧
  (∀ rs ra : Nat, rs < 16 → ra < 16 → encode (.storeP32 rs ra) = 4 <<< 28 ||| rs <<< 24 ||| ra <<< 20) ∧
  (∀ rs addr : Nat, rs < 256 → addr < 2 ^ 48 → encode (.storeP64 rs addr) = 4 <<< 56 ||| rs <<< 48 ||| addr) ∧
  (∀ x y r g b a : Nat, x < 64 → y < 64 → r < 16 → g < 16 → b < 16 → a < 16 →
    encode (.setpixelP32 x y r g b a) =
      5 <<< 28 ||| x <<< 22 ||| y <<< 16 ||| r <<< 12 ||| g <<< 8 ||| b <<< 4 ||| a) ∧
  (∀ x y r g b a : Nat, x < 4096 → y < 4096 → r < 256 → g < 256 → b < 256 → a < 256 →
    encode (.setpixelP64 x y r g b a) =
      5 <<< 56 ||| x <<< 44 ||| y <<< 32 ||| r <<< 24 ||| g <<< 16 ||| b <<< 8 ||| a) ∧
  (∀ addr : Nat, addr < 2 ^ 28 → encode (.jmpP32 addr) = 6 <<< 28 ||| addr) ∧
  (∀ addr : Nat, addr < 2 ^ 56 → encode (.jmpP64 addr) = 6 <<< 56 ||| addr) ∧
  (∀ (ra rb : Nat) (off : Int), ra < 16 → rb < 16 → -(2 ^ 19) ≤ off → off < 2 ^ 19 →
    encode (.beqP32 ra rb off) = 7 <<< 28 ||| ra <<< 24 ||| rb <<< 20 ||| (off % 2 ^ 20).toNat) ∧
  (∀ (ra rb : Nat) (off : Int), ra < 256 → rb < 256 → -(2 ^ 39) ≤ off → off < 2 ^ 39 →
    encode (.beqP64 ra rb off) = 7 <<< 56 ||| ra <<< 48 ||| rb <<< 40 ||| (off % 2 ^ 40).toNat) ∧
  (∀ (p : Profile) (i : Instr), i.wf = false → asmInstr p i = none) ∧
  (asmInstr .p32 (.setpixelP32 10 10 15 0 0 15) = some 0x528AF00F ∧
    asmInstr .p32 (.jmpP32 16) = some 0x60000010 ∧
    asmInstr .p32 (.beqP32 0 0 (-8)) = some 0x700FFFF8 ∧
    asmInstr .p64 (.setpixelP64 10 10 255 0 0 255) = some 0x0500A00AFF0000FF ∧
    asmInstr .p64 (.jmpP64 16) = some 0x0600000000000010 ∧
    asmInstr .p64 (.beqP64 0 0 (-8)) = some 0x070000FFFFFFFFF8)

/-- Rules R67 and R69 with the layouts of R63 and R64: any word, written as its opcode, its fields and its
ignored bits `d`, decodes to the instruction of those fields, whatever the ignored bits are. The signed reading
of the BEQ field is that of rule R10. -/
def Obligations.DecodeReadsFieldsAlone : Prop :=
  (∀ d : Nat, d < 2 ^ 28 → decodeWord .p32 d = .nopP32) ∧
  (∀ rd rs d : Nat, rd < 16 → rs < 16 → d < 2 ^ 20 →
    decodeWord .p32 (2 ^ 28 * 1 + 2 ^ 24 * rd + 2 ^ 20 * rs + d) = .movP32 rd rs) ∧
  (∀ rd rs1 rs2 d : Nat, rd < 16 → rs1 < 16 → rs2 < 16 → d < 2 ^ 16 →
    decodeWord .p32 (2 ^ 28 * 2 + 2 ^ 24 * rd + 2 ^ 20 * rs1 + 2 ^ 16 * rs2 + d) = .addP32 rd rs1 rs2) ∧
  (∀ rd ra d : Nat, rd < 16 → ra < 16 → d < 2 ^ 20 →
    decodeWord .p32 (2 ^ 28 * 3 + 2 ^ 24 * rd + 2 ^ 20 * ra + d) = .loadP32 rd ra) ∧
  (∀ rs ra d : Nat, rs < 16 → ra < 16 → d < 2 ^ 20 →
    decodeWord .p32 (2 ^ 28 * 4 + 2 ^ 24 * rs + 2 ^ 20 * ra + d) = .storeP32 rs ra) ∧
  (∀ x y r g b a : Nat, x < 64 → y < 64 → r < 16 → g < 16 → b < 16 → a < 16 →
    decodeWord .p32 (2 ^ 28 * 5 + 2 ^ 22 * x + 2 ^ 16 * y + 2 ^ 12 * r + 2 ^ 8 * g + 2 ^ 4 * b + a) =
      .setpixelP32 x y r g b a) ∧
  (∀ addr : Nat, addr < 2 ^ 28 → decodeWord .p32 (2 ^ 28 * 6 + addr) = .jmpP32 addr) ∧
  (∀ ra rb f : Nat, ra < 16 → rb < 16 → f < 2 ^ 20 →
    decodeWord .p32 (2 ^ 28 * 7 + 2 ^ 24 * ra + 2 ^ 20 * rb + f) =
      .beqP32 ra rb (if f < 2 ^ 19 then (f : Int) else (f : Int) - 2 ^ 20)) ∧
  (∀ k d : Nat, 8 ≤ k → k < 16 → d < 2 ^ 28 → decodeWord .p32 (2 ^ 28 * k + d) = .unknownP32 k) ∧
  (∀ d : Nat, d < 2 ^ 56 → decodeWord .p64 d = .nopP64) ∧
  (∀ rd rs d : Nat, rd < 256 → rs < 256 → d < 2 ^ 40 →
    decodeWord .p64 (2 ^ 56 * 1 + 2 ^ 48 * rd + 2 ^ 40 * rs + d) = .movP64 rd rs) ∧
  (∀ rd rs1 rs2 d : Nat, rd < 256 → rs1 < 256 → rs2 < 256 → d < 2 ^ 32 →
    decodeWord .p64 (2 ^ 56 * 2 + 2 ^ 48 * rd + 2 ^ 40 * rs1 + 2 ^ 32 * rs2 + d) = .addP64 rd rs1 rs2) ∧
  (∀ rd addr : Nat, rd < 256 → addr < 2 ^ 48 →
    decodeWord .p64 (2 ^ 56 * 3 + 2 ^ 48 * rd + addr) = .loadP64 rd addr) ∧
  (∀ rs addr : Nat, rs < 256 → addr < 2 ^ 48 →
    decodeWord .p64 (2 ^ 56 * 4 + 2 ^ 48 * rs + addr) = .storeP64 rs addr) ∧
  (∀ x y r g b a : Nat, x < 4096 → y < 4096 → r < 256 → g < 256 → b < 256 → a < 256 →
    decodeWord .p64 (2 ^ 56 * 5 + 2 ^ 44 * x + 2 ^ 32 * y + 2 ^ 24 * r + 2 ^ 16 * g + 2 ^ 8 * b + a) =
      .setpixelP64 x y r g b a) ∧
  (∀ addr : Nat, addr < 2 ^ 56 → decodeWord .p64 (2 ^ 56 * 6 + addr) = .jmpP64 addr) ∧
  (∀ ra rb f : Nat, ra < 256 → rb < 256 → f < 2 ^ 40 →
    decodeWord .p64 (2 ^ 56 * 7 + 2 ^ 48 * ra + 2 ^ 40 * rb + f) =
      .beqP64 ra rb (if f < 2 ^ 39 then (f : Int) else (f : Int) - 2 ^ 40)) ∧
  (∀ k d : Nat, 8 ≤ k → k < 256 → d < 2 ^ 56 →
    (k < 16 → decodeWord .p64 (2 ^ 56 * k + d) = .unknown8P64 k) ∧
    (16 ≤ k → k < 32 → decodeWord .p64 (2 ^ 56 * k + d) = .unknown16P64 k) ∧
    (32 ≤ k → k < 64 → decodeWord .p64 (2 ^ 56 * k + d) = .unknown32P64 k) ∧
    (64 ≤ k → k < 128 → decodeWord .p64 (2 ^ 56 * k + d) = .unknown64P64 k) ∧
    (128 ≤ k → decodeWord .p64 (2 ^ 56 * k + d) = .unknown128P64 k))

/-- Whatever the word, the decoder answers a well-formed instruction of its own profile whose opcode is the
word's opcode field (rules R62, R69 and R70). -/
def Obligations.DecodeIsTotalAndWellFormed : Prop :=
  ∀ (p : Profile) (w : Nat),
    (decodeWord p w).wf = true ∧ (decodeWord p w).profile = p ∧
    (decodeWord p w).opcode = w / 2 ^ (p.IW - p.OPW) % 2 ^ p.OPW

/-- Rule R82: the three pseudo-instructions and what each does when it runs. BRA adds its offset as the configuration
reads it: signed (rule R131), or unsigned, the parameter of spec/93_implementation_defined.md I3, whose form is the
model's choice (notes/assumptions/22.md). -/
def Obligations.PseudoInstructionsBehave : Prop :=
  (∀ (p : Profile) (v : Nat), v < 2 ^ (p.IW - p.OPW) →
    dataWord p v = some v ∧ (decodeWord p v).opcode = 0 ∧
    (∀ s : State, s.cfg.profile = p → s.mem.wf = true → ∀ a, a + p.WB ≤ s.cfg.S →
      (s.memWrite a p.WB v).memRead a p.WB = v)) ∧
  (encode (haltInstr .p32) = 0x6FFFFFFF ∧ encode (haltInstr .p64) = 0x06FFFFFFFFFFFFFF) ∧
  (∀ (p : Profile) (s : State), s.cfg = Config.standard p →
    ∃ t, exec (haltInstr p) s = .next t ∧ t.runState = .halted ∧ t.pc = 0) ∧
  (∀ (s : State) (off : Int), s.cfg.Valid →
    ∃ t, exec (braInstr s.cfg.profile off) s = .next t ∧
      (t.pc : Int) = ((s.pc : Int) + displacement s.cfg off) % (s.cfg.S : Int))

/-! ### Registers and memory -/

/-- Rule R21: a register, r0 included, reads what was last written to it; the other registers keep theirs. -/
def Obligations.RegistersHoldWhatWasWritten : Prop :=
  ∀ (s : State) (i v : Nat), i < s.cfg.profile.N → v < 2 ^ s.cfg.profile.W →
    (s.setReg i v).reg i = v ∧ SameRegsBut i s (s.setReg i v)

/-- Rule R23: the index is saturated into range, no access leaves the array and nothing is reported; in both
profiles no encodable index is changed. -/
def Obligations.RegisterIndexSaturates : Prop :=
  ∀ (s : State) (i v : Nat),
    s.reg i = s.reg (min i (s.cfg.profile.N - 1)) ∧
    s.setReg i v = s.setReg (min i (s.cfg.profile.N - 1)) v ∧
    (s.setReg i v).events = s.events ∧
    (i < 2 ^ s.cfg.profile.RFW → min i (s.cfg.profile.N - 1) = i)

/-- Rule R41: a read is the little-endian sum of its bytes, or 0 out of bounds. -/
def Obligations.MemReadIsLittleEndianSum : Prop :=
  ∀ (s : State) (a k : Nat), s.memRead a k = if a + k ≤ s.cfg.S then littleEndian s a k else 0

/-- Rule R42: a write stores byte j of v at A + j, or nothing at all out of bounds, and emits no event. -/
def Obligations.MemWriteStoresLittleEndian : Prop :=
  ∀ (s : State) (a k v : Nat), s.mem.wf = true → v < 2 ^ (8 * k) →
    Stored a k v s (s.memWrite a k v) ∧ SameRegs s (s.memWrite a k v) ∧
    (s.memWrite a k v).pc = s.pc ∧ (s.memWrite a k v).events = s.events

/-- Rule R43: byte j of the sequence goes to A + j, or nothing is written out of bounds. -/
def Obligations.MemWriteBytesStoresEachByte : Prop :=
  ∀ (s : State) (a : Nat) (bs : List Byte), s.mem.wf = true →
    (a + bs.length ≤ s.cfg.S →
      (∀ (j : Nat) (h : j < bs.length), (s.memWriteBytes a bs).byteAt (a + j) = bs[j]) ∧
      SameBytesOutside a bs.length s (s.memWriteBytes a bs)) ∧
    (s.cfg.S < a + bs.length → SameBytes s (s.memWriteBytes a bs))

/-- The source's property S2: a value written in bounds is read back. -/
def Obligations.WriteThenReadGivesValue : Prop :=
  ∀ (s : State) (a k v : Nat), s.mem.wf = true → a + k ≤ s.cfg.S → v < 2 ^ (8 * k) →
    (s.memWrite a k v).memRead a k = v

/-- Rule R50: out of bounds, a read gives 0 and a write changes no part of the state. -/
def Obligations.OutOfBoundsIsSilent : Prop :=
  ∀ (s : State) (a k v : Nat) (bs : List Byte),
    (s.cfg.S < a + k → s.memRead a k = 0 ∧ s.memWrite a k v = s) ∧
    (s.cfg.S < a + bs.length → s.memWriteBytes a bs = s)

/-- Two canonical memories that read the same at every address are the same list (a property of this model's
own representation of rule R27's array, notes/assumptions/7.md). -/
def Obligations.CanonicalMemoriesAreEqual : Prop :=
  ∀ m n : Memory, m.wf = true → n.wf = true → (∀ a, m.get a = n.get a) → m = n

/-- Rule R45, P32: a STORE of a word to a pixel's address and the SETPIXEL that writes the same four bytes give
the same next state. P64, where a word covers two pixels: a STORE and two SETPIXELs give the same memory. -/
def Obligations.StoreAndSetPixelAgree : Prop :=
  (∀ (s : State) (rs ra x y r g b a : Nat), s.cfg.profile = .p32 → s.cfg.Valid →
    (Instr.storeP32 rs ra).wf = true → (Instr.setpixelP32 x y r g b a).wf = true →
    x < s.cfg.fbW → y < s.cfg.fbH → s.reg ra = s.cfg.fbBase + y * s.cfg.fbW * 4 + x * 4 →
    s.reg rs = 17 * r + 2 ^ 8 * (17 * g) + 2 ^ 16 * (17 * b) + 2 ^ 24 * (17 * a) →
    ∃ t, exec (.storeP32 rs ra) s = .next t ∧ exec (.setpixelP32 x y r g b a) s = .next t) ∧
  (∀ (s : State) (rs addr x y r g b a r' g' b' a' : Nat), s.cfg.profile = .p64 → s.cfg.Valid →
    (Instr.storeP64 rs addr).wf = true → (Instr.setpixelP64 x y r g b a).wf = true →
    (Instr.setpixelP64 (x + 1) y r' g' b' a').wf = true →
    x + 1 < s.cfg.fbW → y < s.cfg.fbH → addr = s.cfg.fbBase + y * s.cfg.fbW * 4 + x * 4 →
    s.reg rs = r + 2 ^ 8 * g + 2 ^ 16 * b + 2 ^ 24 * a +
      2 ^ 32 * r' + 2 ^ 40 * g' + 2 ^ 48 * b' + 2 ^ 56 * a' →
    ∃ t u v, exec (.storeP64 rs addr) s = .next t ∧ exec (.setpixelP64 x y r g b a) s = .next u ∧
      exec (.setpixelP64 (x + 1) y r' g' b' a') u = .next v ∧ t.mem = v.mem)

/-! ### The instructions -/

/-- Rule R100: NOP, with any ignored bits, changes nothing but pc. -/
def Obligations.NopOnlyAdvances : Prop :=
  (∀ (s : State) (d : Nat), s.cfg.profile = .p32 → s.cfg.Valid → d < 2 ^ 28 →
    decodeWord .p32 d = .nopP32 ∧
    ∃ t, exec .nopP32 s = .next t ∧ SameRegs s t ∧ SameBytes s t ∧ Ends s t [] (s.pc + 4)) ∧
  (∀ (s : State) (d : Nat), s.cfg.profile = .p64 → s.cfg.Valid → d < 2 ^ 56 →
    decodeWord .p64 d = .nopP64 ∧
    ∃ t, exec .nopP64 s = .next t ∧ SameRegs s t ∧ SameBytes s t ∧ Ends s t [] (s.pc + 8))

/-- Rule R101: MOV copies rs to rd and changes no other register, no byte and no event. -/
def Obligations.MovCopiesRegister : Prop :=
  (∀ (s : State) (rd rs d : Nat), s.cfg.profile = .p32 → s.cfg.Valid → rd < 16 → rs < 16 → d < 2 ^ 20 →
    decodeWord .p32 (2 ^ 28 * 1 + 2 ^ 24 * rd + 2 ^ 20 * rs + d) = .movP32 rd rs ∧
    ∃ t, exec (.movP32 rd rs) s = .next t ∧ t.reg rd = s.reg rs ∧ SameRegsBut rd s t ∧ SameBytes s t ∧
      Ends s t [] (s.pc + 4)) ∧
  (∀ (s : State) (rd rs d : Nat), s.cfg.profile = .p64 → s.cfg.Valid → rd < 256 → rs < 256 → d < 2 ^ 40 →
    decodeWord .p64 (2 ^ 56 * 1 + 2 ^ 48 * rd + 2 ^ 40 * rs + d) = .movP64 rd rs ∧
    ∃ t, exec (.movP64 rd rs) s = .next t ∧ t.reg rd = s.reg rs ∧ SameRegsBut rd s t ∧ SameBytes s t ∧
      Ends s t [] (s.pc + 8))

/-- Rule R102: ADD gives the sum mod 2^W, both sources read before the write, overflow silent. -/
def Obligations.AddWrapsAtWidth : Prop :=
  (∀ (s : State) (rd rs1 rs2 d : Nat), s.cfg.profile = .p32 → s.cfg.Valid →
    rd < 16 → rs1 < 16 → rs2 < 16 → d < 2 ^ 16 →
    decodeWord .p32 (2 ^ 28 * 2 + 2 ^ 24 * rd + 2 ^ 20 * rs1 + 2 ^ 16 * rs2 + d) = .addP32 rd rs1 rs2 ∧
    ∃ t, exec (.addP32 rd rs1 rs2) s = .next t ∧ t.reg rd = (s.reg rs1 + s.reg rs2) % 2 ^ 32 ∧
      SameRegsBut rd s t ∧ SameBytes s t ∧ Ends s t [] (s.pc + 4)) ∧
  (∀ (s : State) (rd rs1 rs2 d : Nat), s.cfg.profile = .p64 → s.cfg.Valid →
    rd < 256 → rs1 < 256 → rs2 < 256 → d < 2 ^ 32 →
    decodeWord .p64 (2 ^ 56 * 2 + 2 ^ 48 * rd + 2 ^ 40 * rs1 + 2 ^ 32 * rs2 + d) = .addP64 rd rs1 rs2 ∧
    ∃ t, exec (.addP64 rd rs1 rs2) s = .next t ∧ t.reg rd = (s.reg rs1 + s.reg rs2) % 2 ^ 64 ∧
      SameRegsBut rd s t ∧ SameBytes s t ∧ Ends s t [] (s.pc + 8))

/-- Rule R103 (an inference the spec marks as its own): the same ADD is the two's-complement sum of the signed readings, wrapped at the width. -/
def Obligations.AddIsTwosComplementSum : Prop :=
  ∀ (s : State) (rd rs1 rs2 : Nat), rd < s.cfg.profile.N →
    ∃ t, exec (match s.cfg.profile with | .p32 => .addP32 rd rs1 rs2 | .p64 => .addP64 rd rs1 rs2) s = .next t ∧
      sext s.cfg.profile.W (t.reg rd) =
        Int.bmod (sext s.cfg.profile.W (s.reg rs1) + sext s.cfg.profile.W (s.reg rs2)) (2 ^ s.cfg.profile.W)

/-- Rule R110: LOAD gives rd the word at x[ra] (P32) or at addr (P64), or 0 when it is out of bounds. -/
def Obligations.LoadReadsWord : Prop :=
  (∀ (s : State) (rd ra d : Nat), s.cfg.profile = .p32 → s.cfg.Valid → rd < 16 → ra < 16 → d < 2 ^ 20 →
    decodeWord .p32 (2 ^ 28 * 3 + 2 ^ 24 * rd + 2 ^ 20 * ra + d) = .loadP32 rd ra ∧
    ∃ t, exec (.loadP32 rd ra) s = .next t ∧
      t.reg rd = (if s.reg ra + 4 ≤ s.cfg.S then littleEndian s (s.reg ra) 4 else 0) ∧
      SameRegsBut rd s t ∧ SameBytes s t ∧ Ends s t [] (s.pc + 4)) ∧
  (∀ (s : State) (rd addr : Nat), s.cfg.profile = .p64 → s.cfg.Valid → rd < 256 → addr < 2 ^ 48 →
    decodeWord .p64 (2 ^ 56 * 3 + 2 ^ 48 * rd + addr) = .loadP64 rd addr ∧
    ∃ t, exec (.loadP64 rd addr) s = .next t ∧
      t.reg rd = (if addr + 8 ≤ s.cfg.S then littleEndian s addr 8 else 0) ∧
      SameRegsBut rd s t ∧ SameBytes s t ∧ Ends s t [] (s.pc + 8))

/-- Rule R111: STORE writes all bytes of x[rs], low byte first, at x[ra] (P32) or addr (P64), or nothing when the
range is out of bounds; every other byte and every register is unchanged. -/
def Obligations.StoreWritesWord : Prop :=
  (∀ (s : State) (rs ra d : Nat), s.cfg.profile = .p32 → s.cfg.Valid → s.mem.wf = true →
    rs < 16 → ra < 16 → d < 2 ^ 20 →
    decodeWord .p32 (2 ^ 28 * 4 + 2 ^ 24 * rs + 2 ^ 20 * ra + d) = .storeP32 rs ra ∧
    ∃ t, exec (.storeP32 rs ra) s = .next t ∧ Stored (s.reg ra) 4 (s.reg rs) s t ∧ SameRegs s t ∧
      Ends s t [] (s.pc + 4)) ∧
  (∀ (s : State) (rs addr : Nat), s.cfg.profile = .p64 → s.cfg.Valid → s.mem.wf = true →
    rs < 256 → addr < 2 ^ 48 →
    decodeWord .p64 (2 ^ 56 * 4 + 2 ^ 48 * rs + addr) = .storeP64 rs addr ∧
    ∃ t, exec (.storeP64 rs addr) s = .next t ∧ Stored addr 8 (s.reg rs) s t ∧ SameRegs s t ∧
      Ends s t [] (s.pc + 8))

/-- Rule R120, with the multipliers of rule R121 for the profiles' channel widths (17 and 1): SETPIXEL writes
R, G, B, A at the pixel's address, or nothing when a coordinate is out of range. -/
def Obligations.SetPixelWritesScaledPixel : Prop :=
  (∀ (s : State) (x y r g b a : Nat), s.cfg.profile = .p32 → s.cfg.Valid → s.mem.wf = true →
    x < 64 → y < 64 → r < 16 → g < 16 → b < 16 → a < 16 →
    decodeWord .p32 (2 ^ 28 * 5 + 2 ^ 22 * x + 2 ^ 16 * y + 2 ^ 12 * r + 2 ^ 8 * g + 2 ^ 4 * b + a) =
      .setpixelP32 x y r g b a ∧
    ∃ t, exec (.setpixelP32 x y r g b a) s = .next t ∧
      Drawn x y (BitVec.ofNat 8 (17 * r)) (BitVec.ofNat 8 (17 * g)) (BitVec.ofNat 8 (17 * b))
        (BitVec.ofNat 8 (17 * a)) s t ∧
      SameRegs s t ∧ Ends s t [] (s.pc + 4)) ∧
  (∀ (s : State) (x y r g b a : Nat), s.cfg.profile = .p64 → s.cfg.Valid → s.mem.wf = true →
    x < 4096 → y < 4096 → r < 256 → g < 256 → b < 256 → a < 256 →
    decodeWord .p64 (2 ^ 56 * 5 + 2 ^ 44 * x + 2 ^ 32 * y + 2 ^ 24 * r + 2 ^ 16 * g + 2 ^ 8 * b + a) =
      .setpixelP64 x y r g b a ∧
    ∃ t, exec (.setpixelP64 x y r g b a) s = .next t ∧
      Drawn x y (BitVec.ofNat 8 r) (BitVec.ofNat 8 g) (BitVec.ofNat 8 b) (BitVec.ofNat 8 a) s t ∧
      SameRegs s t ∧ Ends s t [] (s.pc + 8))

/-- Rule R121: the scaled channel is `v * floor(255 / (2^CW - 1))`, one byte for every width 1 to 8, and the
rule's table of multipliers and largest values (the spec marks the rows other than 3, 4 and 8 as derived). -/
def Obligations.ChannelScalingTable : Prop :=
  (∀ cw v : Nat, 1 ≤ cw → cw ≤ 8 → v ≤ 2 ^ cw - 1 →
    scale cw v = v * (255 / (2 ^ cw - 1)) ∧ scale cw v ≤ 255) ∧
  ([1, 2, 3, 4, 5, 6, 7, 8].map (fun cw => scale cw 1) = [255, 85, 36, 17, 8, 4, 2, 1] ∧
    [1, 2, 3, 4, 5, 6, 7, 8].map (fun cw => scale cw (2 ^ cw - 1)) = [255, 255, 252, 255, 248, 252, 254, 255]) ∧
  (Profile.p32.CW = 4 ∧ Profile.p64.CW = 8)

/-- Rule R130: JMP sets pc to its address field, neither reduced nor aligned; a target at or beyond S ends the
step in the forced halt. -/
def Obligations.JmpSetsPc : Prop :=
  (∀ (s : State) (addr : Nat), s.cfg.profile = .p32 → s.cfg.Valid → addr < 2 ^ 28 →
    decodeWord .p32 (2 ^ 28 * 6 + addr) = .jmpP32 addr ∧
    ∃ t, exec (.jmpP32 addr) s = .next t ∧ SameRegs s t ∧ SameBytes s t ∧ Ends s t [] addr) ∧
  (∀ (s : State) (addr : Nat), s.cfg.profile = .p64 → s.cfg.Valid → addr < 2 ^ 56 →
    decodeWord .p64 (2 ^ 56 * 6 + addr) = .jmpP64 addr ∧
    ∃ t, exec (.jmpP64 addr) s = .next t ∧ SameRegs s t ∧ SameBytes s t ∧ Ends s t [] addr)

/-- Rule R131: BEQ with equal registers goes to (pc0 + off) mod S, off the signed field, which never halts; with
unequal ones it falls through. So it is where the configuration reads the field signed and wherever S divides 2^BOW.
A configuration that reads it unsigned, the parameter of spec/93_implementation_defined.md I3
(notes/assumptions/22.md: the model's choice of form), adds the field itself. -/
def Obligations.BeqBranchesModS : Prop :=
  (∀ (s : State) (ra rb f : Nat), s.cfg.profile = .p32 → s.cfg.Valid → ra < 16 → rb < 16 → f < 2 ^ 20 →
    decodeWord .p32 (2 ^ 28 * 7 + 2 ^ 24 * ra + 2 ^ 20 * rb + f) =
      .beqP32 ra rb (if f < 2 ^ 19 then (f : Int) else (f : Int) - 2 ^ 20) ∧
    ∃ t, exec (.beqP32 ra rb (if f < 2 ^ 19 then (f : Int) else (f : Int) - 2 ^ 20)) s = .next t ∧
      SameRegs s t ∧ SameBytes s t ∧
      ((s.cfg.offsetReading = .signed ∨ s.cfg.S ∣ 2 ^ 20) →
        Branched ra rb (if f < 2 ^ 19 then (f : Int) else (f : Int) - 2 ^ 20) 4 s t) ∧
      (s.cfg.offsetReading = .unsigned → Branched ra rb f 4 s t)) ∧
  (∀ (s : State) (ra rb f : Nat), s.cfg.profile = .p64 → s.cfg.Valid → ra < 256 → rb < 256 → f < 2 ^ 40 →
    decodeWord .p64 (2 ^ 56 * 7 + 2 ^ 48 * ra + 2 ^ 40 * rb + f) =
      .beqP64 ra rb (if f < 2 ^ 39 then (f : Int) else (f : Int) - 2 ^ 40) ∧
    ∃ t, exec (.beqP64 ra rb (if f < 2 ^ 39 then (f : Int) else (f : Int) - 2 ^ 40)) s = .next t ∧
      SameRegs s t ∧ SameBytes s t ∧
      ((s.cfg.offsetReading = .signed ∨ s.cfg.S ∣ 2 ^ 40) →
        Branched ra rb (if f < 2 ^ 39 then (f : Int) else (f : Int) - 2 ^ 40) 8 s t) ∧
      (s.cfg.offsetReading = .unsigned → Branched ra rb f 8 s t))

/-- Rule R93: every other opcode emits one UNKNOWN_OPCODE event and is otherwise a NOP; at the top of memory the
STOPPED event follows it. -/
def Obligations.UnknownOpcodeIsReported : Prop :=
  UnknownRow .p32 Instr.unknownP32 8 15 28 ∧
  UnknownRow .p64 Instr.unknown8P64 8 15 56 ∧
  UnknownRow .p64 Instr.unknown16P64 16 31 56 ∧
  UnknownRow .p64 Instr.unknown32P64 32 63 56 ∧
  UnknownRow .p64 Instr.unknown64P64 64 127 56 ∧
  UnknownRow .p64 Instr.unknown128P64 128 255 56

/-- In a configuration whose S divides 2^BOW, as both profiles' does, either reading of the offset field reaches the
target of the other (spec/92_eei_decisions.md D8, spec/93_implementation_defined.md I3); in every configuration the
target is that of its own reading (the parameter of I3, notes/assumptions/22.md). -/
def Obligations.OffsetSignednessIsImmaterial : Prop :=
  (∀ p : Profile, (Config.standard p).S ∣ 2 ^ p.BOW) ∧
  (∀ (s : State) (f : Nat), s.cfg.Valid → s.cfg.S ∣ 2 ^ s.cfg.profile.BOW → f < 2 ^ s.cfg.profile.BOW →
    s.branchTarget (sext s.cfg.profile.BOW f) = (s.pc + f) % s.cfg.S ∧
    (s.branchTarget (sext s.cfg.profile.BOW f) : Int) =
      ((s.pc : Int) + sext s.cfg.profile.BOW f) % (s.cfg.S : Int)) ∧
  (∀ (s : State) (f : Nat), s.cfg.Valid → f < 2 ^ s.cfg.profile.BOW →
    (s.cfg.offsetReading = .signed → (s.branchTarget (sext s.cfg.profile.BOW f) : Int) =
      ((s.pc : Int) + sext s.cfg.profile.BOW f) % (s.cfg.S : Int)) ∧
    (s.cfg.offsetReading = .unsigned → s.branchTarget (sext s.cfg.profile.BOW f) = (s.pc + f) % s.cfg.S))

/-- Rule R92: after any instruction that did not end in the halt, pc is what JMP or a taken BEQ set, and
otherwise the address of the instruction plus its width, 4 or 8. A taken BEQ
adds its offset as the configuration reads it: signed (rule R131), or unsigned, the parameter of
spec/93_implementation_defined.md I3, whose form is the model's choice (notes/assumptions/22.md). -/
def Obligations.PcUpdateRule : Prop :=
  ∀ (i : Instr) (s : State), s.cfg.profile = i.profile → s.cfg.Valid →
    ∃ t, exec i s = .next t ∧
      ((pcSet i s).getD (s.pc + (match i.profile with | .p32 => 4 | .p64 => 8)) < s.cfg.S →
        t.pc = (pcSet i s).getD (s.pc + (match i.profile with | .p32 => 4 | .p64 => 8))) ∧
      (s.cfg.S ≤ (pcSet i s).getD (s.pc + (match i.profile with | .p32 => 4 | .p64 => 8)) → t.pc = 0)

/-- Rule R97, over all instructions: the one register or the one memory range the instruction names is all it
writes, never both, and `loaded` and the configuration are not written; run_state moves only by the forced halt. -/
def Obligations.OneDestinationPerInstruction : Prop :=
  ∀ (i : Instr) (s t : State), i.wf = true → s.mem.wf = true → exec i s = .next t →
    (regWritten i = none ∨ bytesWritten i s = none) ∧
    (∀ j, j < s.cfg.profile.N → regWritten i ≠ some j → t.reg j = s.reg j) ∧
    (∀ b, (∀ a k, bytesWritten i s = some (a, k) → b < a ∨ a + k ≤ b) → t.byteAt b = s.byteAt b) ∧
    t.loaded = s.loaded ∧ t.cfg = s.cfg ∧
    (t.runState = s.runState ∨ (t.runState = .halted ∧ t.pc = 0 ∧
      t.events.getLast? = some ⟨.error, .stopped, .cause .memoryExhausted⟩))

/-- Rules R34 and R97: what an instruction does to registers, pc, memory and the events it adds does not depend
on run_state, on `loaded` or on the events before it. -/
def Obligations.ControlStateIsInvisible : Prop :=
  ∀ (i : Instr) (s t : State) (r : RunState) (l : Bool) (es : List Event), exec i s = .next t →
    ∃ u added, exec i (withControl s r l es) = .next u ∧
      (∀ j, u.reg j = t.reg j) ∧ u.pc = t.pc ∧ u.mem = t.mem ∧
      t.events = s.events ++ added ∧ u.events = es ++ added

/-- Through the instructions: a LOAD after a STORE at the same in-bounds address gives the stored register. -/
def Obligations.LoadAfterStoreGivesStored : Prop :=
  (∀ (s t : State) (rs rd ra : Nat), s.cfg.profile = .p32 → s.mem.wf = true → rd < 16 →
    s.reg ra + 4 ≤ s.cfg.S → exec (.storeP32 rs ra) s = .next t →
    ∃ u, exec (.loadP32 rd ra) t = .next u ∧ u.reg rd = s.reg rs) ∧
  (∀ (s t : State) (rs rd addr : Nat), s.cfg.profile = .p64 → s.mem.wf = true → rd < 256 →
    addr + 8 ≤ s.cfg.S → exec (.storeP64 rs addr) s = .next t →
    ∃ u, exec (.loadP64 rd addr) t = .next u ∧ u.reg rd = s.reg rs)

/-! ### The step -/

/-- When Running, a step is exec of the instruction decoded from the word at pc, and nothing around it. -/
def Obligations.StepRunsFetchedInstruction : Prop :=
  ∀ s : State, s.runState = .running →
    step s = exec (decodeWord s.cfg.profile (s.memRead s.pc s.cfg.profile.IB)) s

/-- When Running and the bytes at pc are those of a well-formed instruction of the block's profile, a step is
exec of that instruction. -/
def Obligations.StepRunsEncodedInstruction : Prop :=
  ∀ (s : State) (i : Instr), s.runState = .running → i.wf = true → i.profile = s.cfg.profile →
    s.pc + s.cfg.profile.IB ≤ s.cfg.S →
    (∀ (j : Nat) (h : j < (encodeBytes i).length), s.byteAt (s.pc + j) = (encodeBytes i)[j]) →
    step s = exec i s

/-- Rule R90: outside Running a step changes no state and emits no event. -/
def Obligations.StepIsGated : Prop :=
  ∀ s : State, s.runState ≠ .running → step s = .next s

/-- Rule R142 and spec/93_implementation_defined.md: nothing is fatal. Every step of every block, in every state,
answers a next state. -/
def Obligations.StepAlwaysAnswersNext : Prop :=
  ∀ s : State, ∃ t, step s = .next t ∧ t.cfg = s.cfg

/-- Rule R94 (which the spec marks as derived): a fetch out of bounds gives 0, a NOP, and the step ends in the forced halt with no other event. -/
def Obligations.FetchOutOfBoundsHalts : Prop :=
  ∀ s : State, s.runState = .running → s.cfg.Valid → s.pc < s.cfg.S → s.cfg.S < s.pc + s.cfg.profile.IB →
    s.fetchWord = 0 ∧ s.fetchInstr.opcode = 0 ∧
    ∃ t, step s = .next t ∧ t.runState = .halted ∧ t.pc = 0 ∧ SameRegs s t ∧ SameBytes s t ∧
      t.events = s.events ++ [⟨.error, .stopped, .cause .memoryExhausted⟩]

/-- Rules R56 and R176: a word stored over the next instruction is the word the next step fetches. -/
def Obligations.StoreIsSeenByNextFetch : Prop :=
  (∀ (s : State) (rs ra : Nat), s.cfg.profile = .p32 → s.cfg.Valid → s.mem.wf = true →
    s.reg ra = s.pc + 4 → s.pc + 8 ≤ s.cfg.S →
    ∃ t, exec (.storeP32 rs ra) s = .next t ∧ t.pc = s.pc + 4 ∧ t.fetchWord = s.reg rs) ∧
  (∀ (s : State) (rs addr : Nat), s.cfg.profile = .p64 → s.cfg.Valid → s.mem.wf = true →
    addr = s.pc + 8 → s.pc + 16 ≤ s.cfg.S →
    ∃ t, exec (.storeP64 rs addr) s = .next t ∧ t.pc = s.pc + 8 ∧ t.fetchWord = s.reg rs)

/-- Rules R130, R131 and R151: a JMP to itself and a taken BEQ with offset 0 leave the whole state as it is, so
no number of steps halts the block. -/
def Obligations.SelfLoopNeverHalts : Prop :=
  ∀ (s : State) (n : Nat), s.runState = .running → s.pc < s.cfg.S →
    (s.fetchInstr = .jmpP32 s.pc ∨ s.fetchInstr = .jmpP64 s.pc ∨
      (∃ ra rb, s.reg ra = s.reg rb ∧ (s.fetchInstr = .beqP32 ra rb 0 ∨ s.fetchInstr = .beqP64 ra rb 0))) →
    core.run n s = .next s

/-- The word `State.withFetchWord` places is the one the next step runs, in a block of that word's profile (the
model's own reading of rules R172 and R174, notes/assumptions/4.md). -/
def Obligations.PlacedWordRunsNext : Prop :=
  ∀ (s : State) (w : Nat), s.cfg.Valid → s.mem.wf = true →
    step (s.withFetchWord s.cfg.profile.IW w) =
      exec (decodeWord s.cfg.profile (w % 2 ^ s.cfg.profile.IW)) (s.withFetchWord s.cfg.profile.IW w)

/-! ### Reset, host commands and events -/

/-- Rule R32: the value of every piece of state at construction, whatever the configuration. -/
def Obligations.ConstructionValues : Prop :=
  ∀ c : Config,
    (∀ i, i < c.profile.N → (State.construct c).reg i = 0) ∧ (State.construct c).pc = 0 ∧
    (∀ a, (State.construct c).byteAt a = 0) ∧ (State.construct c).runState = .idle ∧
    (State.construct c).loaded = false ∧ (State.construct c).events = [] ∧ (State.construct c).cfg = c

/-- Rule R146: start is refused with exactly one error event before any load, and else gives Running from every
run-state with no event; pc, registers and memory are unchanged. -/
def Obligations.StartNeedsLoadedProgram : Prop :=
  ∀ s : State,
    (∃ t, s.command .start = .next t ∧ SameRegs s t ∧ SameBytes s t ∧ t.pc = s.pc ∧ t.loaded = s.loaded ∧
      t.cfg = s.cfg ∧
      (s.loaded = false → t.runState = s.runState ∧
        t.events = s.events ++ [⟨.error, .programNotLoaded, .noInfo⟩]) ∧
      (s.loaded = true → t.runState = .running ∧ t.events = s.events))

/-- Rule R147: pause gives Paused from every run-state with one warning event, and a later start goes on at the
same pc. -/
def Obligations.PauseKeepsPc : Prop :=
  ∀ s : State,
    (∃ t, s.command .pause = .next t ∧ t.runState = .paused ∧
      t.events = s.events ++ [⟨.warning, .paused, .noInfo⟩] ∧ SameRegs s t ∧ SameBytes s t ∧ t.pc = s.pc ∧
      t.loaded = s.loaded ∧ t.cfg = s.cfg) ∧
    (s.loaded = true → ∃ u, s.runCommands [.pause, .start] = .next u ∧ u.runState = .running ∧ u.pc = s.pc)

/-- Rule R148: stop gives Halted and pc 0 from every run-state with an error-severity event; a second stop leaves
the same state and one more event. -/
def Obligations.StopIsIdempotent : Prop :=
  ∀ s : State,
    ∃ t u, s.command .stop = .next t ∧ s.runCommands [.stop, .stop] = .next u ∧
      t.runState = .halted ∧ t.pc = 0 ∧ SameRegs s t ∧ SameBytes s t ∧ t.loaded = s.loaded ∧ t.cfg = s.cfg ∧
      t.events = s.events ++ [⟨.error, .stopped, .cause .host⟩] ∧
      u = { t with events := t.events ++ [⟨.error, .stopped, .cause .host⟩] }

/-- Rule R150: a step whose new pc is at or beyond S does exactly what stop does, but for the cause; registers and
memory keep what the instruction left. -/
def Obligations.ForcedHaltIsStop : Prop :=
  ∀ (s : State) (target : Nat), s.cfg.S ≤ target →
    ∃ t, s.command .stop = .next t ∧
      s.retire (some target) =
        { t with events := s.events ++ [⟨.error, .stopped, .cause .memoryExhausted⟩] } ∧
      SameRegs s (s.retire (some target)) ∧ SameBytes s (s.retire (some target))

/-- Rule R149 (which the spec marks as derived): the run-state transition table, every command in every run-state, of a block that meets the
invariant. -/
def Obligations.RunStateTable : Prop :=
  ∀ s : State, s.Inv →
    (∀ bs, ∃ t, s.command (.load bs) = .next t ∧ t.runState = s.runState) ∧
    (s.loaded = false → s.runState ≠ .running ∧
      ∃ t, s.command .start = .next t ∧ t.runState = s.runState ∧
        t.events = s.events ++ [⟨.error, .programNotLoaded, .noInfo⟩]) ∧
    (s.loaded = true → ∃ t, s.command .start = .next t ∧ t.runState = .running) ∧
    (∃ t, s.command .pause = .next t ∧ t.runState = .paused) ∧
    (∃ t, s.command .stop = .next t ∧ t.runState = .halted) ∧
    (s.runState ≠ .running → s.command .step = .next s) ∧
    (s.runState = .running → ∃ t, s.command .step = .next t ∧ (t.runState = .running ∨ t.runState = .halted))

/-- Rules R172 and R173: load stores the file word by word from address 0 in FILE_ORDER, zero-padded, drops a word
that is out of bounds, leaves every other byte, every register, pc and run_state, sets loaded and emits LOADED
with the byte count. -/
def Obligations.LoadStoresFileWords : Prop :=
  ∀ (s : State) (bs : List Byte), s.mem.wf = true →
    ∃ t, s.command (.load bs) = .next t ∧
      (∀ k j, k * s.cfg.profile.WB < bs.length → j < s.cfg.profile.WB → (k + 1) * s.cfg.profile.WB ≤ s.cfg.S →
        t.byteAt (k * s.cfg.profile.WB + j) =
          fileByte bs s.cfg.profile.WB k (filePlace s.cfg.fileOrder s.cfg.profile.WB j)) ∧
      (∀ k j, bs.length ≤ k * s.cfg.profile.WB ∨ s.cfg.S < (k + 1) * s.cfg.profile.WB → j < s.cfg.profile.WB →
        t.byteAt (k * s.cfg.profile.WB + j) = s.byteAt (k * s.cfg.profile.WB + j)) ∧
      SameRegs s t ∧ t.pc = s.pc ∧ t.runState = s.runState ∧ t.cfg = s.cfg ∧ t.loaded = true ∧
      t.events = s.events ++ [⟨.success, .loaded, .byteCount bs.length⟩]

/-- Rule R174 and the first consequence of rule R172: from construction, load then start gives a Running block at
pc 0 with zero registers whose first step runs the file's first word, read in FILE_ORDER. -/
def Obligations.BootRunsFirstFileWord : Prop :=
  ∀ (c : Config) (bs : List Byte), c.Valid →
    (State.construct c).command .start =
      .next { State.construct c with events := [⟨.error, .programNotLoaded, .noInfo⟩] } ∧
    ∃ t, (State.construct c).runCommands [.load bs, .start] = .next t ∧ t.runState = .running ∧ t.pc = 0 ∧
      (∀ i, i < c.profile.N → t.reg i = 0) ∧
      step t = exec (decodeWord c.profile (∑ j ∈ Finset.range c.profile.WB,
        (fileByte bs c.profile.WB 0 (filePlace c.fileOrder c.profile.WB j)).toNat * 2 ^ (8 * j))) t

/-- Rules R31, R141 and R143: a command only appends events, each with the severity and info of its kind; a step
appends at most two, UNKNOWN_OPCODE before STOPPED, and any other command at most one. -/
def Obligations.EventsAreAppendedInOrder : Prop :=
  ∀ (s t : State) (c : Command), s.command c = .next t →
    ∃ added, t.events = s.events ++ added ∧ added.all Event.legal = true ∧
      (c ≠ .step → added.length ≤ 1) ∧
      (c = .step → added = [] ∨ added = [⟨.error, .stopped, .cause .memoryExhausted⟩] ∨
        (∃ k, added = [⟨.warning, .unknownOpcode, .opcodeAt k s.pc⟩]) ∨
        (∃ k, added = [⟨.warning, .unknownOpcode, .opcodeAt k s.pc⟩,
          ⟨.error, .stopped, .cause .memoryExhausted⟩]))

/-- Rules R28, R34 and R44: the snapshot gives pc and the framebuffer bytes, which are M's own: pixel byte (x, y, c)
is `M[FB_BASE + y*FB_W*4 + x*4 + c]`, and the view reads the same byte. That it gives every register is the model's
reading, not the rule's words: the accessor of rule R34 reads `{pc, registers[0..8], framebuffer bytes}`
(notes/assumptions/14.md, DEDUCED). -/
def Obligations.SnapshotShowsMemory : Prop :=
  ∀ (s : State) (x y c : Nat), s.cfg.Valid → x < s.cfg.fbW → y < s.cfg.fbH → c < 4 →
    s.snapshot.pc = s.pc ∧ s.snapshot.registers = (List.range s.cfg.profile.N).map s.reg ∧
    s.snapshot.framebuffer[y * s.cfg.fbW * 4 + x * 4 + c]? =
      some (s.byteAt (s.cfg.fbBase + y * s.cfg.fbW * 4 + x * 4 + c)) ∧
    s.viewRead s.framebuffer x y c =
      some (s.byteAt (s.cfg.fbBase + y * s.cfg.fbW * 4 + x * 4 + c)).toNat

/-- Rules R44 and R45: a byte written through the presenter's view is that byte of M, and no other byte and no
register changes. -/
def Obligations.ViewWriteAliasesMemory : Prop :=
  ∀ (s : State) (x y c : Nat) (v : Byte), s.cfg.Valid → s.mem.wf = true →
    x < s.cfg.fbW → y < s.cfg.fbH → c < 4 →
    (s.viewWrite s.framebuffer x y c v).byteAt (s.cfg.fbBase + y * s.cfg.fbW * 4 + x * 4 + c) = v ∧
    SameBytesOutside (s.cfg.fbBase + y * s.cfg.fbW * 4 + x * 4 + c) 1 s (s.viewWrite s.framebuffer x y c v) ∧
    SameRegs s (s.viewWrite s.framebuffer x y c v)

/-! ### Invariants -/

/-- Rule R25 (which the spec marks as derived): pc is below S at construction, after every step and after every host command, and pc + IB never
wraps. -/
def Obligations.PcStaysBelowS : Prop :=
  (∀ c : Config, c.Valid → (State.construct c).pc < c.S) ∧
  (∀ (s t : State) (c : Command), s.cfg.Valid → s.pc < s.cfg.S → s.command c = .next t → t.pc < t.cfg.S) ∧
  (∀ s : State, s.cfg.Valid → s.pc < s.cfg.S → s.pc + s.cfg.profile.IB < 2 ^ s.cfg.profile.W)

/-- Rule R6: the parameters are fixed at construction: no command and no run changes them. -/
def Obligations.ConfigurationIsFixed : Prop :=
  ∀ (s t : State) (cs : List Command), s.runCommands cs = .next t → t.cfg = s.cfg

/-- A block constructed with a configuration that meets rule R6 meets the invariant; both profiles' standard
configurations do, and so does the machine after reset (the P32 block: the model's choice,
notes/assumptions/1.md). -/
def Obligations.ConstructionMeetsInvariant : Prop :=
  (∀ c : Config, c.Valid → (State.construct c).Inv) ∧ (∀ p : Profile, (Config.standard p).Valid) ∧
  State.reset.Inv

/-- From every state that meets the invariant, a step gives a state that meets it. -/
def Obligations.StepKeepsInvariant : Prop :=
  ∀ s t : State, s.Inv → step s = .next t → t.Inv

/-- Every sequence of host commands, from every state that meets the invariant, ends in a next state that meets
it: no run of the block stops, faults or is refused. -/
def Obligations.EveryRunIsSafe : Prop :=
  ∀ (s : State) (cs : List Command), s.Inv → SafeRun s cs
end

