-- ==== Sys2Proof/Laws/Decode.lean ====
section
/-!
SUPPORT. The small lemmas of the decoder's helpers, and that no encoding leaves its word.
-/

namespace Sys2Proof

theorem bits_lt (w hi lo : Nat) : bits w hi lo < 2 ^ (hi + 1 - lo) := Nat.mod_lt _ (Nat.pow_pos (by decide))

/-- The 20-bit offset field of P32's BEQ reads back (rules R10 and R81). -/
theorem sext_signedField20 {off : Int} (h : fitsSigned 20 off = true) : sext 20 (signedField 20 off) = off := by
  simp only [fitsSigned, Bool.and_eq_true, decide_eq_true_eq] at h
  unfold sext bits signedField
  norm_num at h ⊢
  by_cases hb : (off % 1048576).toNat / 524288 % 2 = 1
  · rw [if_pos hb]; omega
  · rw [if_neg hb]; omega

/-- The 40-bit offset field of P64's BEQ reads back (rules R10 and R81). -/
theorem sext_signedField40 {off : Int} (h : fitsSigned 40 off = true) : sext 40 (signedField 40 off) = off := by
  simp only [fitsSigned, Bool.and_eq_true, decide_eq_true_eq] at h
  unfold sext bits signedField
  norm_num at h ⊢
  by_cases hb : (off % 1099511627776).toNat / 549755813888 % 2 = 1
  · rw [if_pos hb]; omega
  · rw [if_neg hb]; omega

theorem signedField_lt (n : Nat) (off : Int) : signedField n off < 2 ^ n := by
  have h : (0 : Int) < 2 ^ n := by positivity
  have h1 := Int.emod_lt_of_pos off h
  have h0 := Int.emod_nonneg off (ne_of_gt h)
  unfold signedField
  have : ((off % 2 ^ n).toNat : Int) < ((2 ^ n : Nat) : Int) := by
    rw [Int.toNat_of_nonneg h0]; exact_mod_cast h1
  exact_mod_cast this

/-- The field of a signed reading is the field that was read (rules R10 and R81). -/
theorem signedField_sext {n f : Nat} (h : f < 2 ^ n) : signedField n (sext n f) = f := by
  have hf : ((f : Int) % (2 ^ n : Int)).toNat = f := by
    rw [Int.emod_eq_of_lt (by omega) (by exact_mod_cast h)]
    exact Int.toNat_natCast f
  unfold signedField sext
  split
  · rw [Int.sub_emod_right]; exact hf
  · exact hf

end Sys2Proof
end

