-- ==== Sys2Proof/Laws/State.lean ====
section
/-!
SUPPORT. One lemma per observable per update of State: what each field's update leaves and sets.
-/

namespace Sys2Proof.Machine

variable (s : State)

/-! ### The register file -/

@[simp] theorem State.setReg_cfg (i v : Nat) : (s.setReg i v).cfg = s.cfg := rfl
@[simp] theorem State.setReg_pc (i v : Nat) : (s.setReg i v).pc = s.pc := rfl
@[simp] theorem State.setReg_mem (i v : Nat) : (s.setReg i v).mem = s.mem := rfl
@[simp] theorem State.setReg_runState (i v : Nat) : (s.setReg i v).runState = s.runState := rfl
@[simp] theorem State.setReg_loaded (i v : Nat) : (s.setReg i v).loaded = s.loaded := rfl
@[simp] theorem State.setReg_events (i v : Nat) : (s.setReg i v).events = s.events := rfl

/-- Read after write of a register (rules R9 and R21). -/
theorem State.setReg_reg (i v j : Nat) :
    (s.setReg i v).reg j = if s.clamp j = s.clamp i then v % 2 ^ s.cfg.profile.W else s.reg j := by
  unfold State.reg State.setReg
  simp only [Vector.getElem_set]
  show (if s.clamp i = s.clamp j then _ else _ : BitVec _).toNat = _
  split <;> rename_i h
  · simp [h]
  · rw [if_neg (Ne.symm h)]; rfl

theorem State.reg_lt (i : Nat) : s.reg i < 2 ^ s.cfg.profile.W := BitVec.isLt _

/-- An index that names a register is not changed by the clamp (rule R23). -/
theorem State.clamp_of_lt {i : Nat} (h : i < s.cfg.profile.N) : s.clamp i = i := by
  unfold State.clamp; omega

/-! ### The program counter -/

@[simp] theorem State.setPc_cfg (v : Nat) : (s.setPc v).cfg = s.cfg := rfl
@[simp] theorem State.setPc_reg (v i : Nat) : (s.setPc v).reg i = s.reg i := rfl
@[simp] theorem State.setPc_pc (v : Nat) : (s.setPc v).pc = v % 2 ^ s.cfg.profile.W :=
  BitVec.toNat_ofNat _ _
@[simp] theorem State.setPc_mem (v : Nat) : (s.setPc v).mem = s.mem := rfl
@[simp] theorem State.setPc_runState (v : Nat) : (s.setPc v).runState = s.runState := rfl
@[simp] theorem State.setPc_loaded (v : Nat) : (s.setPc v).loaded = s.loaded := rfl
@[simp] theorem State.setPc_events (v : Nat) : (s.setPc v).events = s.events := rfl

theorem State.pc_lt_width : s.pc < 2 ^ s.cfg.profile.W := BitVec.isLt _

theorem State.setPc_self : s.setPc s.pc = s := by
  cases s; simp [State.setPc, State.pc]

/-! ### Memory -/

@[simp] theorem State.setMem_cfg (m : Memory) : (s.setMem m).cfg = s.cfg := rfl
@[simp] theorem State.setMem_reg (m : Memory) (i : Nat) : (s.setMem m).reg i = s.reg i := rfl
@[simp] theorem State.setMem_pc (m : Memory) : (s.setMem m).pc = s.pc := rfl
@[simp] theorem State.setMem_mem (m : Memory) : (s.setMem m).mem = m := rfl
@[simp] theorem State.setMem_runState (m : Memory) : (s.setMem m).runState = s.runState := rfl
@[simp] theorem State.setMem_loaded (m : Memory) : (s.setMem m).loaded = s.loaded := rfl
@[simp] theorem State.setMem_events (m : Memory) : (s.setMem m).events = s.events := rfl

/-! ### The control state -/

@[simp] theorem State.setRunState_cfg (r : RunState) : (s.setRunState r).cfg = s.cfg := rfl
@[simp] theorem State.setRunState_reg (r : RunState) (i : Nat) : (s.setRunState r).reg i = s.reg i := rfl
@[simp] theorem State.setRunState_pc (r : RunState) : (s.setRunState r).pc = s.pc := rfl
@[simp] theorem State.setRunState_mem (r : RunState) : (s.setRunState r).mem = s.mem := rfl
@[simp] theorem State.setRunState_runState (r : RunState) : (s.setRunState r).runState = r := rfl
@[simp] theorem State.setRunState_loaded (r : RunState) : (s.setRunState r).loaded = s.loaded := rfl
@[simp] theorem State.setRunState_events (r : RunState) : (s.setRunState r).events = s.events := rfl

@[simp] theorem State.setLoaded_cfg : s.setLoaded.cfg = s.cfg := rfl
@[simp] theorem State.setLoaded_reg (i : Nat) : s.setLoaded.reg i = s.reg i := rfl
@[simp] theorem State.setLoaded_pc : s.setLoaded.pc = s.pc := rfl
@[simp] theorem State.setLoaded_mem : s.setLoaded.mem = s.mem := rfl
@[simp] theorem State.setLoaded_runState : s.setLoaded.runState = s.runState := rfl
@[simp] theorem State.setLoaded_loaded : s.setLoaded.loaded = true := rfl
@[simp] theorem State.setLoaded_events : s.setLoaded.events = s.events := rfl

@[simp] theorem State.emit_cfg (e : Event) : (s.emit e).cfg = s.cfg := rfl
@[simp] theorem State.emit_reg (e : Event) (i : Nat) : (s.emit e).reg i = s.reg i := rfl
@[simp] theorem State.emit_pc (e : Event) : (s.emit e).pc = s.pc := rfl
@[simp] theorem State.emit_mem (e : Event) : (s.emit e).mem = s.mem := rfl
@[simp] theorem State.emit_runState (e : Event) : (s.emit e).runState = s.runState := rfl
@[simp] theorem State.emit_loaded (e : Event) : (s.emit e).loaded = s.loaded := rfl
@[simp] theorem State.emit_events (e : Event) : (s.emit e).events = s.events ++ [e] := rfl

/-! ### Construction -/

variable (c : Config)

@[simp] theorem State.construct_cfg : (State.construct c).cfg = c := rfl
@[simp] theorem State.construct_mem : (State.construct c).mem = [] := rfl
@[simp] theorem State.construct_runState : (State.construct c).runState = .idle := rfl
@[simp] theorem State.construct_loaded : (State.construct c).loaded = false := rfl
@[simp] theorem State.construct_events : (State.construct c).events = [] := rfl
@[simp] theorem State.construct_pc : (State.construct c).pc = 0 := by simp [State.pc, State.construct]
@[simp] theorem State.construct_reg (i : Nat) : (State.construct c).reg i = 0 := by
  simp [State.reg, State.construct]

end Sys2Proof.Machine
end

