-- ==== Sys2Proof/Laws/Memory.lean ====
section
/-!
SUPPORT. The laws of the byte array: read after write, the canonical form that every write keeps, that equal
readings are equal lists, and that bytes stored little-endian read back.
-/

namespace Sys2Proof.Machine

/-! ### Byte order -/

@[simp] theorem length_leBytes (k v : Nat) : (leBytes k v).length = k := by
  induction k generalizing v with
  | zero => rfl
  | succ k ih => simp [leBytes, ih]

theorem leValue_leBytes (k v : Nat) : leValue (leBytes k v) = v % 256 ^ k := by
  induction k generalizing v with
  | zero => simp [leBytes, leValue, Nat.mod_one]
  | succ k ih =>
    simp only [leBytes, leValue, ih, BitVec.toNat_ofNat, Nat.reducePow]
    rw [Nat.pow_succ', Nat.mod_mul]

theorem leValue_lt (bs : List Byte) : leValue bs < 256 ^ bs.length := by
  induction bs with
  | nil => simp [leValue]
  | cons b bs ih =>
    have hb : b.toNat < 256 := b.isLt
    simp only [leValue, List.length_cons, Nat.pow_succ']
    omega

/-- The bytes of a little-endian number are the bytes it was made of. -/
theorem leBytes_leValue (bs : List Byte) : leBytes bs.length (leValue bs) = bs := by
  induction bs with
  | nil => rfl
  | cons b bs ih =>
    have hb : b.toNat < 256 := b.isLt
    rw [List.length_cons, leBytes, leValue, show (b.toNat + 256 * leValue bs) / 256 = leValue bs by omega, ih]
    congr 1
    apply BitVec.eq_of_toNat_eq
    rw [BitVec.toNat_ofNat]
    omega

/-- Byte j of a number is its bits [8j+7:8j] (rule R42). -/
theorem getElem_leBytes (k v j : Nat) (h : j < (leBytes k v).length) :
    (leBytes k v)[j] = BitVec.ofNat 8 (v / 256 ^ j) := by
  induction k generalizing v j with
  | zero => simp at h
  | succ k ih =>
    cases j with
    | zero => simp [leBytes]
    | succ j =>
      simp only [leBytes, List.getElem_cons_succ, ih]
      rw [Nat.div_div_eq_div_mul, Nat.pow_succ']

/-! ### The canonical form -/

theorem Memory.wfFrom_mono {lo lo' : Nat} {m : Memory} (h : lo' ≤ lo) (hm : Memory.wfFrom lo m = true) :
    Memory.wfFrom lo' m = true := by
  cases m with
  | nil => rfl
  | cons c m =>
    simp only [Memory.wfFrom, Bool.and_eq_true, decide_eq_true_eq] at hm ⊢
    exact ⟨⟨by omega, hm.1.2⟩, hm.2⟩

/-- Below its first listed address a canonical memory reads 0. -/
theorem Memory.get_of_lt {lo a : Nat} {m : Memory} (hm : Memory.wfFrom lo m = true) (h : a < lo) :
    Memory.get m a = 0 := by
  induction m generalizing lo with
  | nil => rfl
  | cons c m ih =>
    obtain ⟨b, v⟩ := c
    simp only [Memory.wfFrom, Bool.and_eq_true, decide_eq_true_eq] at hm
    rw [Memory.get, if_neg (by omega)]
    exact ih hm.2 (by omega)

theorem Memory.wfFrom_put {lo a : Nat} {m : Memory} (v : Byte) (hm : Memory.wfFrom lo m = true)
    (ha : lo ≤ a) : Memory.wfFrom lo (Memory.put m a v) = true := by
  induction m generalizing lo with
  | nil =>
    unfold Memory.put
    split <;> simp_all [Memory.wfFrom]
  | cons c m ih =>
    obtain ⟨b, u⟩ := c
    have hm' := hm
    simp only [Memory.wfFrom, Bool.and_eq_true, decide_eq_true_eq] at hm'
    obtain ⟨⟨hb, hu⟩, ht⟩ := hm'
    unfold Memory.put
    split
    · split
      · exact hm
      · rename_i h1 h2
        simp only [Memory.wfFrom, Bool.and_eq_true, decide_eq_true_eq]
        exact ⟨⟨ha, h2⟩, ⟨by omega, hu⟩, ht⟩
    · split
      · split
        · exact Memory.wfFrom_mono (by omega) ht
        · rename_i h1 h2 h3
          simp only [Memory.wfFrom, Bool.and_eq_true, decide_eq_true_eq]
          exact ⟨⟨ha, h3⟩, Memory.wfFrom_mono (by omega) ht⟩
      · simp only [Memory.wfFrom, Bool.and_eq_true, decide_eq_true_eq]
        exact ⟨⟨hb, hu⟩, ih ht (by omega)⟩

theorem Memory.wf_put {m : Memory} (a : Nat) (v : Byte) (hm : m.wf = true) : (m.put a v).wf = true :=
  Memory.wfFrom_put v hm (Nat.zero_le a)

theorem Memory.get_put_wfFrom {lo : Nat} {m : Memory} (a : Nat) (v : Byte) (b : Nat)
    (hm : Memory.wfFrom lo m = true) :
    (m.put a v).get b = if b = a then v else m.get b := by
  induction m generalizing lo with
  | nil =>
    unfold Memory.put
    by_cases hv : v = 0
    · simp [hv, Memory.get]
    · rw [if_neg hv, Memory.get, Memory.get]
      by_cases hb : b = a
      · rw [if_pos hb.symm, if_pos hb]
      · rw [if_neg (Ne.symm hb), if_neg hb]
        rfl
  | cons c m ih =>
    obtain ⟨a', u⟩ := c
    have hm' := hm
    simp only [Memory.wfFrom, Bool.and_eq_true, decide_eq_true_eq] at hm'
    obtain ⟨-, ht⟩ := hm'
    unfold Memory.put
    split
    · rename_i hlt
      have h0 : Memory.get ((a', u) :: m) a = 0 := by
        rw [Memory.get, if_neg (by omega)]
        exact Memory.get_of_lt ht (by omega)
      split
      · rename_i hv
        split
        · rename_i hb; rw [hb, h0, hv]
        · rfl
      · rw [Memory.get]
        by_cases hb : b = a
        · rw [if_pos hb.symm, if_pos hb]
        · rw [if_neg (Ne.symm hb), if_neg hb]
    · split
      · rename_i h1 h2
        subst h2
        split
        · rename_i hv
          by_cases hb : b = a
          · rw [if_pos hb, hb, hv]; exact Memory.get_of_lt ht (by omega)
          · rw [if_neg hb, Memory.get, if_neg (Ne.symm hb)]
        · by_cases hb : b = a
          · rw [Memory.get, if_pos hb.symm, if_pos hb]
          · rw [Memory.get, if_neg (Ne.symm hb), if_neg hb, Memory.get, if_neg (Ne.symm hb)]
      · rename_i h1 h2
        rw [Memory.get]
        by_cases hb : a' = b
        · rw [if_pos hb, if_neg (by omega), Memory.get, if_pos hb]
        · rw [if_neg hb, ih ht, Memory.get, if_neg hb]

/-- Read after write of one byte. -/
theorem Memory.get_put {m : Memory} (a : Nat) (v : Byte) (b : Nat) (hm : m.wf = true) :
    (m.put a v).get b = if b = a then v else m.get b :=
  Memory.get_put_wfFrom a v b hm

/-- The canonical form holds after every run of byte writes. -/
theorem Memory.wf_writeBytes {m : Memory} (a : Nat) (bs : List Byte) (hm : m.wf = true) :
    (m.writeBytes a bs).wf = true := by
  induction bs generalizing m a with
  | nil => exact hm
  | cons b bs ih => exact ih (a + 1) (Memory.wf_put a b hm)

theorem Memory.within_put {m : Memory} {n a : Nat} (v : Byte) (hm : m.within n = true) (ha : a < n) :
    (m.put a v).within n = true := by
  induction m with
  | nil =>
    unfold Memory.put
    split <;> simp_all [Memory.within]
  | cons c m ih =>
    obtain ⟨b, u⟩ := c
    have hm' : b < n ∧ Memory.within n m = true := by
      simpa [Memory.within] using hm
    unfold Memory.put
    split
    · split
      · exact hm
      · simpa [Memory.within, ha] using hm
    · split
      · split
        · exact hm'.2
        · simpa [Memory.within, ha] using hm'.2
      · have := ih hm'.2
        simp only [Memory.within, List.all_cons, Bool.and_eq_true, decide_eq_true_eq] at this ⊢
        exact ⟨hm'.1, this⟩

theorem Memory.within_writeBytes {m : Memory} {n a : Nat} (bs : List Byte) (hm : m.within n = true)
    (ha : a + bs.length ≤ n) : (m.writeBytes a bs).within n = true := by
  induction bs generalizing m a with
  | nil => exact hm
  | cons b bs ih =>
    simp only [List.length_cons] at ha
    exact ih (Memory.within_put b hm (by omega)) (by omega)

/-- A byte after a run of byte writes: byte j of the run at a + j, the old byte elsewhere (rule R43). -/
theorem Memory.get_writeBytes {m : Memory} (a : Nat) (bs : List Byte) (b : Nat) (hm : m.wf = true) :
    (m.writeBytes a bs).get b = if h : a ≤ b ∧ b - a < bs.length then bs[b - a] else m.get b := by
  induction bs generalizing m a with
  | nil => simp [Memory.writeBytes]
  | cons c bs ih =>
    rw [Memory.writeBytes, ih _ (Memory.wf_put a c hm), Memory.get_put a c b hm]
    by_cases h : b = a
    · subst h; simp
    · by_cases h1 : a + 1 ≤ b ∧ b - (a + 1) < bs.length
      · have h2 : a ≤ b ∧ b - a < (c :: bs).length := by
          simp only [List.length_cons]; omega
        rw [dif_pos h1, dif_pos h2]
        have : b - a = (b - (a + 1)) + 1 := by omega
        simp [this]
      · have h2 : ¬(a ≤ b ∧ b - a < (c :: bs).length) := by
          simp only [List.length_cons]; omega
        rw [dif_neg h1, dif_neg h2, if_neg h]

/-- A run of byte writes changes no byte outside it. -/
theorem Memory.get_writeBytes_outside {m : Memory} {a b : Nat} (bs : List Byte) (hm : m.wf = true)
    (h : b < a ∨ a + bs.length ≤ b) : (m.writeBytes a bs).get b = m.get b := by
  rw [Memory.get_writeBytes a bs b hm, dif_neg (by omega)]

/-! ### Reading runs of bytes -/

/-- What a read gives depends on the bytes read alone. -/
theorem Memory.readLE_congr {m m' : Memory} {a k : Nat}
    (h : ∀ j, j < k → m.get (a + j) = m'.get (a + j)) : m.readLE a k = m'.readLE a k := by
  induction k generalizing a with
  | zero => rfl
  | succ k ih =>
    rw [Memory.readLE, Memory.readLE, ← Nat.add_zero a, h 0 (by omega)]
    rw [ih (a := a + 0 + 1)]
    intro j hj
    have := h (j + 1) (by omega)
    simpa [Nat.add_assoc, Nat.add_comm 1 j] using this

theorem Memory.readLE_lt (m : Memory) (a k : Nat) : m.readLE a k < 256 ^ k := by
  induction k generalizing a with
  | zero => simp [Memory.readLE]
  | succ k ih =>
    have h1 := ih (a + 1)
    have h2 : (m.get a).toNat < 256 := (m.get a).isLt
    rw [Memory.readLE, Nat.pow_succ']
    omega

/-- Bytes stored and read back at the same place give their little-endian number. -/
theorem Memory.readLE_writeBytes {m : Memory} (a : Nat) (bs : List Byte) (hm : m.wf = true) :
    (m.writeBytes a bs).readLE a bs.length = leValue bs := by
  induction bs generalizing m a with
  | nil => rfl
  | cons b bs ih =>
    rw [List.length_cons, Memory.readLE, leValue, Memory.writeBytes, ih _ (Memory.wf_put a b hm)]
    rw [Memory.get_writeBytes_outside bs (Memory.wf_put a b hm) (by omega), Memory.get_put a b a hm,
      if_pos rfl]

end Sys2Proof.Machine
end

