-- ==== Sys2Proof/Laws/Ops.lean ====
section
/-!
SUPPORT. What each shared operation can do, said once: the memory ports, the stop, the end of a step, and the
profile check.
-/

namespace Sys2Proof.Machine

variable (s : State)

/-! ### Memory ports -/

@[simp] theorem State.memWriteBytes_cfg (a : Nat) (bs : List Byte) : (s.memWriteBytes a bs).cfg = s.cfg := by
  unfold State.memWriteBytes; split <;> rfl
@[simp] theorem State.memWriteBytes_reg (a : Nat) (bs : List Byte) (i : Nat) :
    (s.memWriteBytes a bs).reg i = s.reg i := by
  unfold State.memWriteBytes; split <;> rfl
@[simp] theorem State.memWriteBytes_pc (a : Nat) (bs : List Byte) : (s.memWriteBytes a bs).pc = s.pc := by
  unfold State.memWriteBytes; split <;> rfl
@[simp] theorem State.memWriteBytes_runState (a : Nat) (bs : List Byte) :
    (s.memWriteBytes a bs).runState = s.runState := by
  unfold State.memWriteBytes; split <;> rfl
@[simp] theorem State.memWriteBytes_loaded (a : Nat) (bs : List Byte) :
    (s.memWriteBytes a bs).loaded = s.loaded := by
  unfold State.memWriteBytes; split <;> rfl
@[simp] theorem State.memWriteBytes_events (a : Nat) (bs : List Byte) :
    (s.memWriteBytes a bs).events = s.events := by
  unfold State.memWriteBytes; split <;> rfl

/-- An out-of-bounds write changes nothing (rule R50). -/
theorem State.memWriteBytes_outOfBounds {a : Nat} {bs : List Byte} (h : s.cfg.S < a + bs.length) :
    s.memWriteBytes a bs = s := by
  unfold State.memWriteBytes State.inBounds
  rw [if_neg (by simpa using h)]

theorem State.memWriteBytes_mem {a : Nat} {bs : List Byte} (h : a + bs.length ≤ s.cfg.S) :
    (s.memWriteBytes a bs).mem = s.mem.writeBytes a bs := by
  unfold State.memWriteBytes State.inBounds
  rw [if_pos (by simpa using h)]
  rfl

theorem State.memWriteBytes_wf (a : Nat) (bs : List Byte) (h : s.mem.wf = true) :
    (s.memWriteBytes a bs).mem.wf = true := by
  by_cases hb : a + bs.length ≤ s.cfg.S
  · rw [s.memWriteBytes_mem hb]; exact Memory.wf_writeBytes a bs h
  · rw [s.memWriteBytes_outOfBounds (by omega)]; exact h

theorem State.memWriteBytes_within (a : Nat) (bs : List Byte) (h : s.mem.within s.cfg.S = true) :
    (s.memWriteBytes a bs).mem.within s.cfg.S = true := by
  by_cases hb : a + bs.length ≤ s.cfg.S
  · rw [s.memWriteBytes_mem hb]; exact Memory.within_writeBytes bs h hb
  · rw [s.memWriteBytes_outOfBounds (by omega)]; exact h

/-- A write changes no byte outside its range, in bounds or not. -/
theorem State.memWriteBytes_byteAt_outside {a b : Nat} (bs : List Byte) (hm : s.mem.wf = true)
    (h : b < a ∨ a + bs.length ≤ b) : (s.memWriteBytes a bs).byteAt b = s.byteAt b := by
  by_cases hb : a + bs.length ≤ s.cfg.S
  · rw [State.byteAt, s.memWriteBytes_mem hb]; exact Memory.get_writeBytes_outside bs hm h
  · rw [s.memWriteBytes_outOfBounds (by omega)]

theorem State.memWriteBytes_byteAt_inside {a j : Nat} {bs : List Byte} (hm : s.mem.wf = true)
    (hb : a + bs.length ≤ s.cfg.S) (hj : j < bs.length) : (s.memWriteBytes a bs).byteAt (a + j) = bs[j] := by
  have h : a ≤ a + j ∧ a + j - a < bs.length := by omega
  rw [State.byteAt, s.memWriteBytes_mem hb, Memory.get_writeBytes a bs _ hm, dif_pos h]
  simp

/-- A read out of bounds gives 0 (rule R50). -/
theorem State.memRead_outOfBounds {a k : Nat} (h : s.cfg.S < a + k) : s.memRead a k = 0 := by
  unfold State.memRead State.inBounds
  rw [if_neg (by simpa using h)]

theorem State.memRead_inBounds {a k : Nat} (h : a + k ≤ s.cfg.S) : s.memRead a k = s.mem.readLE a k := by
  unfold State.memRead State.inBounds
  rw [if_pos (by simpa using h)]

theorem State.memRead_lt (a k : Nat) : s.memRead a k < 256 ^ k := by
  unfold State.memRead
  split
  · exact Memory.readLE_lt _ _ _
  · exact Nat.pow_pos (by decide)

/-! ### The stop and the end of a step -/

@[simp] theorem State.stopWith_cfg (c : StopCause) : (s.stopWith c).cfg = s.cfg := rfl
@[simp] theorem State.stopWith_reg (c : StopCause) (i : Nat) : (s.stopWith c).reg i = s.reg i := rfl
@[simp] theorem State.stopWith_mem (c : StopCause) : (s.stopWith c).mem = s.mem := rfl
@[simp] theorem State.stopWith_loaded (c : StopCause) : (s.stopWith c).loaded = s.loaded := rfl
@[simp] theorem State.stopWith_runState (c : StopCause) : (s.stopWith c).runState = .halted := rfl
@[simp] theorem State.stopWith_events (c : StopCause) :
    (s.stopWith c).events = s.events ++ [Event.stopped c] := rfl
@[simp] theorem State.stopWith_pc (c : StopCause) : (s.stopWith c).pc = 0 := by
  simp [State.stopWith]

/-- The pc a step aims at before the halt check (rule R92). -/
def State.target (pcSet : Option Nat) : Nat := pcSet.getD (s.pc + s.cfg.profile.IB)

/-- The two ends of a step (rules R91 and R150). -/
theorem State.retire_cases (o : Option Nat) :
    (s.cfg.S ≤ s.target o ∧ s.retire o = s.stopWith .memoryExhausted) ∨
      (s.target o < s.cfg.S ∧ s.retire o = s.setPc (s.target o)) := by
  by_cases h : s.cfg.S ≤ s.target o
  · exact .inl ⟨h, if_pos h⟩
  · exact .inr ⟨by omega, if_neg h⟩

@[simp] theorem State.retire_cfg (o : Option Nat) : (s.retire o).cfg = s.cfg := by
  rcases s.retire_cases o with ⟨-, h⟩ | ⟨-, h⟩ <;> rw [h] <;> rfl
@[simp] theorem State.retire_reg (o : Option Nat) (i : Nat) : (s.retire o).reg i = s.reg i := by
  rcases s.retire_cases o with ⟨-, h⟩ | ⟨-, h⟩ <;> rw [h] <;> rfl
@[simp] theorem State.retire_mem (o : Option Nat) : (s.retire o).mem = s.mem := by
  rcases s.retire_cases o with ⟨-, h⟩ | ⟨-, h⟩ <;> rw [h] <;> rfl
@[simp] theorem State.retire_loaded (o : Option Nat) : (s.retire o).loaded = s.loaded := by
  rcases s.retire_cases o with ⟨-, h⟩ | ⟨-, h⟩ <;> rw [h] <;> rfl

/-! ### Branch targets -/

theorem State.branchOffset_signed (off : Int) (h : s.cfg.offsetReading = .signed) : s.branchOffset off = off := by
  simp only [State.branchOffset, h]

/-- The unsigned reading gives the offset field itself (spec/93_implementation_defined.md I3). -/
theorem State.branchOffset_unsigned {f : Nat} (h : s.cfg.offsetReading = .unsigned)
    (hf : f < 2 ^ s.cfg.profile.BOW) : s.branchOffset (sext s.cfg.profile.BOW f) = f := by
  simp only [State.branchOffset, h, signedField_sext hf]

@[simp] theorem State.branchOffset_zero : s.branchOffset 0 = 0 := by
  unfold State.branchOffset
  split
  · rfl
  · simp [signedField]

/-- A branch target as a number, in a memory that is not empty (rule R131). -/
theorem State.branchTarget_cast (off : Int) (h : 0 < s.cfg.S) :
    (s.branchTarget off : Int) = ((s.pc : Int) + s.branchOffset off) % (s.cfg.S : Int) :=
  Int.toNat_of_nonneg (Int.emod_nonneg _ (by omega))

theorem State.branchTarget_lt (off : Int) (h : 0 < s.cfg.S) : s.branchTarget off < s.cfg.S := by
  have h1 := s.branchTarget_cast off h
  have h2 := Int.emod_lt_of_pos ((s.pc : Int) + s.branchOffset off) (b := (s.cfg.S : Int)) (by omega)
  omega

/-! ### The profile check -/

theorem State.onProfile_next {p : Profile} {t u : State} (h : s.onProfile p t = .next u) :
    s.cfg.profile = p ∧ u = t := by
  unfold State.onProfile at h
  split at h
  · exact ⟨‹_›, by simpa using h.symm⟩
  · cases h

theorem State.onProfile_same {p : Profile} (t : State) (h : s.cfg.profile = p) : s.onProfile p t = .next t :=
  if_pos h

end Sys2Proof.Machine
end

