-- ==== Sys2Proof/Laws/Exec.lean ====
section
/-!
SUPPORT. What an instruction and a step can do, said once for all instructions: one effect (nothing, one
register, one memory range or one event), then the end of the step; and for each arm the state it answers.
-/

namespace Sys2Proof.Machine

/-- The effects an instruction can have before its pc update (rule R97). -/
inductive Effect (s : State) : State → Prop where
  | nothing : Effect s s
  | register (rd v : Nat) : Effect s (s.setReg rd v)
  | memory (a : Nat) (bs : List Byte) (width : bs.length = s.cfg.profile.WB ∨ bs.length = 4) :
    Effect s (s.memWriteBytes a bs)
  | event (op : Nat) : Effect s (s.emit (Event.unknownOpcode op s.pc))

/-- Inversion of `exec`: the block has the instruction's profile, and the next state is one effect and the
end of the step. -/
theorem exec_next {i : Instr} {s t : State} (h : exec i s = .next t) :
    s.cfg.profile = i.profile ∧ ∃ u o, Effect s u ∧ t = u.retire o := by
  cases i with
  | nopP32 => have h := s.onProfile_next h; exact ⟨h.1, _, _, .nothing, h.2⟩
  | movP32 rd rs => have h := s.onProfile_next h; exact ⟨h.1, _, _, .register _ _, h.2⟩
  | addP32 rd rs1 rs2 => have h := s.onProfile_next h; exact ⟨h.1, _, _, .register _ _, h.2⟩
  | loadP32 rd ra => have h := s.onProfile_next h; exact ⟨h.1, _, _, .register _ _, h.2⟩
  | storeP32 rs ra =>
    have h := s.onProfile_next h
    exact ⟨h.1, _, _, .memory _ _ (.inl (length_leBytes _ _)), h.2⟩
  | setpixelP32 x y r g b a =>
    have h := s.onProfile_next h
    refine ⟨h.1, _, _, ?_, h.2⟩
    unfold State.drawPixel
    split
    · exact .memory _ _ (.inr rfl)
    · exact .nothing
  | jmpP32 addr => have h := s.onProfile_next h; exact ⟨h.1, _, _, .nothing, h.2⟩
  | beqP32 ra rb off => have h := s.onProfile_next h; exact ⟨h.1, _, _, .nothing, h.2⟩
  | unknownP32 op => have h := s.onProfile_next h; exact ⟨h.1, _, _, .event _, h.2⟩
  | nopP64 => have h := s.onProfile_next h; exact ⟨h.1, _, _, .nothing, h.2⟩
  | movP64 rd rs => have h := s.onProfile_next h; exact ⟨h.1, _, _, .register _ _, h.2⟩
  | addP64 rd rs1 rs2 => have h := s.onProfile_next h; exact ⟨h.1, _, _, .register _ _, h.2⟩
  | loadP64 rd addr => have h := s.onProfile_next h; exact ⟨h.1, _, _, .register _ _, h.2⟩
  | storeP64 rs addr =>
    have h := s.onProfile_next h
    exact ⟨h.1, _, _, .memory _ _ (.inl (length_leBytes _ _)), h.2⟩
  | setpixelP64 x y r g b a =>
    have h := s.onProfile_next h
    refine ⟨h.1, _, _, ?_, h.2⟩
    unfold State.drawPixel
    split
    · exact .memory _ _ (.inr rfl)
    · exact .nothing
  | jmpP64 addr => have h := s.onProfile_next h; exact ⟨h.1, _, _, .nothing, h.2⟩
  | beqP64 ra rb off => have h := s.onProfile_next h; exact ⟨h.1, _, _, .nothing, h.2⟩
  | unknown8P64 op => have h := s.onProfile_next h; exact ⟨h.1, _, _, .event _, h.2⟩
  | unknown16P64 op => have h := s.onProfile_next h; exact ⟨h.1, _, _, .event _, h.2⟩
  | unknown32P64 op => have h := s.onProfile_next h; exact ⟨h.1, _, _, .event _, h.2⟩
  | unknown64P64 op => have h := s.onProfile_next h; exact ⟨h.1, _, _, .event _, h.2⟩
  | unknown128P64 op => have h := s.onProfile_next h; exact ⟨h.1, _, _, .event _, h.2⟩

/-! ### Each arm -/

section Arms

variable {s : State}

theorem exec_nopP32 (h : s.cfg.profile = .p32) :
    exec .nopP32 s = .next (s.retire none) :=
  s.onProfile_same _ h
theorem exec_movP32 (h : s.cfg.profile = .p32) (rd rs : Nat) :
    exec (.movP32 rd rs) s = .next ((s.moveReg rd rs).retire none) :=
  s.onProfile_same _ h
theorem exec_addP32 (h : s.cfg.profile = .p32) (rd rs1 rs2 : Nat) :
    exec (.addP32 rd rs1 rs2) s = .next ((s.addRegs rd rs1 rs2).retire none) :=
  s.onProfile_same _ h
theorem exec_loadP32 (h : s.cfg.profile = .p32) (rd ra : Nat) :
    exec (.loadP32 rd ra) s = .next ((s.loadReg rd (s.indirectAddr ra)).retire none) :=
  s.onProfile_same _ h
theorem exec_storeP32 (h : s.cfg.profile = .p32) (rs ra : Nat) :
    exec (.storeP32 rs ra) s = .next ((s.storeReg rs (s.indirectAddr ra)).retire none) :=
  s.onProfile_same _ h
theorem exec_setpixelP32 (h : s.cfg.profile = .p32) (x y r g b a : Nat) :
    exec (.setpixelP32 x y r g b a) s = .next ((s.drawPixel x y r g b a).retire none) :=
  s.onProfile_same _ h
theorem exec_jmpP32 (h : s.cfg.profile = .p32) (addr : Nat) :
    exec (.jmpP32 addr) s = .next (s.retire (some (jumpTarget addr))) :=
  s.onProfile_same _ h
theorem exec_beqP32 (h : s.cfg.profile = .p32) (ra rb : Nat) (off : Int) :
    exec (.beqP32 ra rb off) s = .next (s.retire (s.branchIfEqual ra rb off)) :=
  s.onProfile_same _ h
theorem exec_unknownP32 (h : s.cfg.profile = .p32) (op : Nat) :
    exec (.unknownP32 op) s = .next ((s.reportUnknown op).retire none) :=
  s.onProfile_same _ h
theorem exec_nopP64 (h : s.cfg.profile = .p64) :
    exec .nopP64 s = .next (s.retire none) :=
  s.onProfile_same _ h
theorem exec_movP64 (h : s.cfg.profile = .p64) (rd rs : Nat) :
    exec (.movP64 rd rs) s = .next ((s.moveReg rd rs).retire none) :=
  s.onProfile_same _ h
theorem exec_addP64 (h : s.cfg.profile = .p64) (rd rs1 rs2 : Nat) :
    exec (.addP64 rd rs1 rs2) s = .next ((s.addRegs rd rs1 rs2).retire none) :=
  s.onProfile_same _ h
theorem exec_loadP64 (h : s.cfg.profile = .p64) (rd addr : Nat) :
    exec (.loadP64 rd addr) s = .next ((s.loadReg rd (directAddr addr)).retire none) :=
  s.onProfile_same _ h
theorem exec_storeP64 (h : s.cfg.profile = .p64) (rs addr : Nat) :
    exec (.storeP64 rs addr) s = .next ((s.storeReg rs (directAddr addr)).retire none) :=
  s.onProfile_same _ h
theorem exec_setpixelP64 (h : s.cfg.profile = .p64) (x y r g b a : Nat) :
    exec (.setpixelP64 x y r g b a) s = .next ((s.drawPixel x y r g b a).retire none) :=
  s.onProfile_same _ h
theorem exec_jmpP64 (h : s.cfg.profile = .p64) (addr : Nat) :
    exec (.jmpP64 addr) s = .next (s.retire (some (jumpTarget addr))) :=
  s.onProfile_same _ h
theorem exec_beqP64 (h : s.cfg.profile = .p64) (ra rb : Nat) (off : Int) :
    exec (.beqP64 ra rb off) s = .next (s.retire (s.branchIfEqual ra rb off)) :=
  s.onProfile_same _ h
theorem exec_unknown8P64 (h : s.cfg.profile = .p64) (op : Nat) :
    exec (.unknown8P64 op) s = .next ((s.reportUnknown op).retire none) :=
  s.onProfile_same _ h
theorem exec_unknown16P64 (h : s.cfg.profile = .p64) (op : Nat) :
    exec (.unknown16P64 op) s = .next ((s.reportUnknown op).retire none) :=
  s.onProfile_same _ h
theorem exec_unknown32P64 (h : s.cfg.profile = .p64) (op : Nat) :
    exec (.unknown32P64 op) s = .next ((s.reportUnknown op).retire none) :=
  s.onProfile_same _ h
theorem exec_unknown64P64 (h : s.cfg.profile = .p64) (op : Nat) :
    exec (.unknown64P64 op) s = .next ((s.reportUnknown op).retire none) :=
  s.onProfile_same _ h
theorem exec_unknown128P64 (h : s.cfg.profile = .p64) (op : Nat) :
    exec (.unknown128P64 op) s = .next ((s.reportUnknown op).retire none) :=
  s.onProfile_same _ h

end Arms

/-- In a block of the instruction's profile `exec` answers a next state. -/
theorem exec_answers (i : Instr) (s : State) (h : s.cfg.profile = i.profile) : ∃ t, exec i s = .next t := by
  cases i <;> exact ⟨_, s.onProfile_same _ h⟩

/-- Inversion of `step`: a no-op outside Running, else one instruction (rules R90 and R91). -/
theorem step_next {s t : State} (h : step s = .next t) :
    (s.runState ≠ .running ∧ t = s) ∨ (s.runState = .running ∧ exec s.fetchInstr s = .next t) := by
  unfold step at h
  split at h
  · exact .inr ⟨‹_›, h⟩
  all_goals
    rename_i hr
    exact .inl ⟨by simp [hr], by simpa using h.symm⟩

end Sys2Proof.Machine
end

