-- ==== Sys2Proof/Laws/Commands.lean ====
section
/-!
SUPPORT. What a load does to each field and to each byte of memory (spec/70_reset_and_hazards.md rule R172), and
what a longer write is made of.
-/

namespace Sys2Proof.Machine

variable (s : State)

/-! ### Byte order -/

/-- Byte j of a little-endian number is byte j of the bytes it was made of (rules R41 and R42). -/
theorem ofNat_leValue_div (bs : List Byte) (j : Nat) (h : j < bs.length) :
    BitVec.ofNat 8 (leValue bs / 256 ^ j) = bs[j] := by
  have h1 := getElem_leBytes bs.length (leValue bs) j (by simpa using h)
  rw [← h1]
  simp [leBytes_leValue]

theorem Memory.writeBytes_append (m : Memory) (a : Nat) (bs cs : List Byte) :
    m.writeBytes a (bs ++ cs) = (m.writeBytes a bs).writeBytes (a + bs.length) cs := by
  induction bs generalizing m a with
  | nil => rfl
  | cons b bs ih =>
    simp only [List.cons_append, Memory.writeBytes, ih, List.length_cons]
    congr 1
    omega

/-! ### The words of a file -/

/-- In a padded file every counted word is whole (rule R172). -/
theorem length_fileWord (wb : Nat) (bs : List Byte) (k : Nat) (hk : k < fileWordCount wb bs.length) :
    (fileWord wb (padFile wb bs) k).length = wb := by
  unfold fileWord padFile
  have hwb : 0 < wb := by
    rcases Nat.eq_zero_or_pos wb with h | h
    · subst h; simp [fileWordCount] at hk
    · exact h
  have h1 : (k + 1) * wb ≤ fileWordCount wb bs.length * wb := Nat.mul_le_mul_right wb hk
  have h2 : bs.length ≤ fileWordCount wb bs.length * wb := by
    unfold fileWordCount
    have h3 := Nat.div_add_mod (bs.length + wb - 1) wb
    have h4 := Nat.mod_lt (bs.length + wb - 1) hwb
    rw [Nat.mul_comm] at h3
    omega
  simp only [List.length_take, List.length_drop, List.length_append, List.length_replicate]
  rw [Nat.add_mul] at h1
  omega

/-- Byte j of word k of a padded file is the file's byte there, or 0 past its end (rule R172). -/
theorem getElem_fileWord (wb : Nat) (bs : List Byte) (k j : Nat)
    (h : j < (fileWord wb (padFile wb bs) k).length) :
    (fileWord wb (padFile wb bs) k)[j] = (bs[k * wb + j]?).getD 0 := by
  unfold fileWord padFile at h ⊢
  simp only [List.getElem_take, List.getElem_drop, List.getElem_append, List.getElem_replicate]
  split
  · rename_i hlt
    rw [List.getElem?_eq_getElem hlt, Option.getD_some]
  · rename_i hge
    rw [List.getElem?_eq_none (by omega), Option.getD_none]

/-- A file word is counted when, and only when, some byte of it is in the file (rule R172). -/
theorem lt_fileWordCount {wb len k : Nat} (hwb : 0 < wb) : k < fileWordCount wb len ↔ k * wb < len := by
  unfold fileWordCount
  rw [Nat.lt_iff_add_one_le, Nat.le_div_iff_mul_le hwb, Nat.add_mul]
  omega

/-! ### Loading -/

@[simp] theorem State.loadWords_cfg (p : List Byte) (n : Nat) : (s.loadWords p n).cfg = s.cfg := by
  induction n with
  | zero => rfl
  | succ n ih => simpa [State.loadWords, State.memWrite] using ih
@[simp] theorem State.loadWords_reg (p : List Byte) (n i : Nat) : (s.loadWords p n).reg i = s.reg i := by
  induction n with
  | zero => rfl
  | succ n ih => simpa [State.loadWords, State.memWrite] using ih
@[simp] theorem State.loadWords_pc (p : List Byte) (n : Nat) : (s.loadWords p n).pc = s.pc := by
  induction n with
  | zero => rfl
  | succ n ih => simpa [State.loadWords, State.memWrite] using ih
@[simp] theorem State.loadWords_runState (p : List Byte) (n : Nat) :
    (s.loadWords p n).runState = s.runState := by
  induction n with
  | zero => rfl
  | succ n ih => simpa [State.loadWords, State.memWrite] using ih
@[simp] theorem State.loadWords_loaded (p : List Byte) (n : Nat) : (s.loadWords p n).loaded = s.loaded := by
  induction n with
  | zero => rfl
  | succ n ih => simpa [State.loadWords, State.memWrite] using ih
@[simp] theorem State.loadWords_events (p : List Byte) (n : Nat) : (s.loadWords p n).events = s.events := by
  induction n with
  | zero => rfl
  | succ n ih => simpa [State.loadWords, State.memWrite] using ih

theorem State.loadWords_wf (p : List Byte) (n : Nat) (h : s.mem.wf = true) :
    (s.loadWords p n).mem.wf = true := by
  induction n with
  | zero => exact h
  | succ n ih => exact State.memWriteBytes_wf _ _ _ ih

theorem State.loadWords_within (p : List Byte) (n : Nat) (h : s.mem.within s.cfg.S = true) :
    (s.loadWords p n).mem.within s.cfg.S = true := by
  induction n with
  | zero => exact h
  | succ n ih =>
    have := State.memWriteBytes_within (s.loadWords p n) (n * s.cfg.profile.WB)
      (leBytes s.cfg.profile.WB (fileWordValue s.cfg.fileOrder (fileWord s.cfg.profile.WB p n)))
      (by rw [s.loadWords_cfg]; exact ih)
    rw [s.loadWords_cfg] at this
    exact this

/-- Byte j of memory word k after the first `n` words of a file: the file word's byte when the word was stored,
and the old byte otherwise. -/
theorem State.loadWords_byteAt (p : List Byte) (n k j : Nat) (hm : s.mem.wf = true)
    (hj : j < s.cfg.profile.WB) :
    (s.loadWords p n).byteAt (k * s.cfg.profile.WB + j) =
      if k < n ∧ (k + 1) * s.cfg.profile.WB ≤ s.cfg.S then
        BitVec.ofNat 8 (fileWordValue s.cfg.fileOrder (fileWord s.cfg.profile.WB p k) / 256 ^ j)
      else s.byteAt (k * s.cfg.profile.WB + j) := by
  induction n with
  | zero => rw [if_neg (by omega)]; rfl
  | succ n ih =>
    have hw := s.loadWords_wf p n hm
    simp only [State.loadWords, State.memWrite]
    generalize hb : leBytes s.cfg.profile.WB (fileWordValue s.cfg.fileOrder (fileWord s.cfg.profile.WB p n)) = bs
    have hlen : bs.length = s.cfg.profile.WB := by rw [← hb]; simp
    rcases Nat.lt_trichotomy k n with hk | hk | hk
    · have h1 : (k + 1) * s.cfg.profile.WB ≤ n * s.cfg.profile.WB := Nat.mul_le_mul_right _ hk
      rw [Nat.add_mul] at h1
      rw [State.memWriteBytes_byteAt_outside _ bs hw (by omega), ih]
      simp only [hk, true_and, show k < n + 1 by omega]
    · subst hk
      by_cases hS : (k + 1) * s.cfg.profile.WB ≤ s.cfg.S
      · rw [if_pos ⟨by omega, hS⟩]
        rw [Nat.add_mul] at hS
        rw [State.memWriteBytes_byteAt_inside _ hw (by rw [s.loadWords_cfg]; omega) (by omega)]
        subst hb
        exact getElem_leBytes _ _ _ _
      · rw [if_neg (by omega)]
        have hS' := hS
        rw [Nat.add_mul] at hS'
        rw [State.memWriteBytes_outOfBounds _ (by rw [s.loadWords_cfg]; omega), ih, if_neg (by omega)]
    · have h1 : (n + 1) * s.cfg.profile.WB ≤ k * s.cfg.profile.WB := Nat.mul_le_mul_right _ hk
      rw [Nat.add_mul] at h1
      rw [State.memWriteBytes_byteAt_outside _ bs hw (by omega), ih, if_neg (by omega), if_neg (by omega)]

/-! ### Runs -/

/-- A run of two parts goes on from where the first part ends. -/
theorem State.runCommands_append {t : State} {cs ds : List Command} (h : s.runCommands cs = .next t) :
    s.runCommands (cs ++ ds) = t.runCommands ds := by
  induction cs generalizing s with
  | nil => simp only [State.runCommands] at h; cases h; rfl
  | cons c cs ih =>
    simp only [State.runCommands, List.cons_append] at h ⊢
    cases hc : s.command c with
    | next u => rw [hc] at h; exact ih u h
    | fault r => rw [hc] at h; cases h
    | refused r => rw [hc] at h; cases h

end Sys2Proof.Machine
end

