-- ==== Sys2Proof/Laws/Inv.lean ====
section
/-!
SUPPORT. The invariant under each shared update: the operations of Machine/Ops.lean that keep it, and the end of a
step that restores it.
-/

namespace Sys2Proof.Machine

variable {s : State}

/-- S fits the pc, and so does every address below it (rule R6). -/
theorem Config.Valid.lt_width {c : Config} (h : c.Valid) {a : Nat} (ha : a < c.S) : a < 2 ^ c.profile.W := by
  have := h.2.2.2.2
  omega

theorem State.Inv.setReg (h : s.Inv) (i v : Nat) : (s.setReg i v).Inv :=
  ⟨h.cfg_valid, h.pc_lt, h.mem_wf, h.mem_within, h.running_loaded, h.halted_pc, h.idle_pc, h.events_legal⟩

theorem State.Inv.memWriteBytes (h : s.Inv) (a : Nat) (bs : List Byte) : (s.memWriteBytes a bs).Inv where
  cfg_valid := by rw [s.memWriteBytes_cfg]; exact h.cfg_valid
  pc_lt := by rw [s.memWriteBytes_pc, s.memWriteBytes_cfg]; exact h.pc_lt
  mem_wf := s.memWriteBytes_wf a bs h.mem_wf
  mem_within := by rw [s.memWriteBytes_cfg]; exact s.memWriteBytes_within a bs h.mem_within
  running_loaded := by rw [s.memWriteBytes_runState, s.memWriteBytes_loaded]; exact h.running_loaded
  halted_pc := by rw [s.memWriteBytes_runState, s.memWriteBytes_pc]; exact h.halted_pc
  idle_pc := by rw [s.memWriteBytes_runState, s.memWriteBytes_pc]; exact h.idle_pc
  events_legal := by rw [s.memWriteBytes_events]; exact h.events_legal

theorem State.Inv.emit (h : s.Inv) {e : Event} (he : e.legal = true) : (s.emit e).Inv :=
  ⟨h.cfg_valid, h.pc_lt, h.mem_wf, h.mem_within, h.running_loaded, h.halted_pc, h.idle_pc, by
    rw [s.emit_events, List.all_append, h.events_legal]; simp [he]⟩

theorem State.Inv.stopWith (h : s.Inv) (c : StopCause) : (s.stopWith c).Inv where
  cfg_valid := h.cfg_valid
  pc_lt := by rw [s.stopWith_pc, s.stopWith_cfg]; have := h.pc_lt; omega
  mem_wf := h.mem_wf
  mem_within := h.mem_within
  running_loaded := by rw [s.stopWith_runState]; intro q; cases q
  halted_pc := fun _ => s.stopWith_pc c
  idle_pc := by rw [s.stopWith_runState]; intro q; cases q
  events_legal := by rw [s.stopWith_events, List.all_append, h.events_legal]; rfl

/-- The halt check gives back a pc below S (rule R150). -/
theorem State.retire_pc_lt (h : s.cfg.Valid) (o : Option Nat) : (s.retire o).pc < s.cfg.S := by
  rcases s.retire_cases o with ⟨-, q⟩ | ⟨ht, q⟩ <;> rw [q]
  · rw [s.stopWith_pc]; have := h.1; omega
  · rw [s.setPc_pc, Nat.mod_eq_of_lt (Config.Valid.lt_width h ht)]; exact ht

/-- What a step ends in meets the invariant when its effect does, in a Running block. -/
theorem State.Inv.retire (h : s.Inv) (hr : s.runState = .running) (o : Option Nat) : (s.retire o).Inv := by
  have hpc := State.retire_pc_lt h.cfg_valid o
  rcases s.retire_cases o with ⟨-, q⟩ | ⟨-, q⟩ <;> rw [q] at hpc ⊢
  · exact h.stopWith _
  · refine ⟨h.cfg_valid, hpc, h.mem_wf, h.mem_within, h.running_loaded, ?_, ?_, h.events_legal⟩ <;>
      rw [s.setPc_runState, hr] <;> intro q <;> cases q

/-- Every effect of an instruction keeps the invariant and the run-state. -/
theorem Effect.keeps {u : State} (e : Effect s u) (h : s.Inv) : u.Inv ∧ u.runState = s.runState := by
  cases e with
  | nothing => exact ⟨h, rfl⟩
  | register rd v => exact ⟨h.setReg rd v, rfl⟩
  | memory a bs _ => exact ⟨h.memWriteBytes a bs, s.memWriteBytes_runState a bs⟩
  | event op => exact ⟨h.emit rfl, rfl⟩

/-- A load keeps the invariant in every run-state (rule R173). -/
theorem State.Inv.load (h : s.Inv) (bs : List Byte) : (s.load bs).Inv := by
  have hw : ∀ (p : List Byte) (n : Nat), (s.loadWords p n).Inv := by
    intro p n
    induction n with
    | zero => exact h
    | succ n ih => exact ih.memWriteBytes _ _
  have hw := hw (padFile s.cfg.profile.WB bs) (fileWordCount s.cfg.profile.WB bs.length)
  exact ⟨hw.cfg_valid, hw.pc_lt, hw.mem_wf, hw.mem_within, fun _ => rfl, hw.halted_pc, hw.idle_pc, by
    rw [State.load, State.emit_events, List.all_append, State.setLoaded_events, hw.events_legal]; rfl⟩

end Sys2Proof.Machine
end

