-- ==== Sys2Proof/Laws/PerInstr.lean ====
section
/-!
SUPPORT. The statements made for each constructor of Instr: the word of a well-formed instruction has the
instruction width of its profile (spec/30_encoding.md rules R60 and R81).
-/

namespace Sys2Proof.Laws.EncodeFits

/-- The word of a well-formed instruction fits the IW bits of its profile. -/
def Statement (i : Instr) : Prop := i.wf = true → encode i < 2 ^ i.profile.IW

theorem nopP32 : Statement (.nopP32) := by
  intro h
  decide

theorem movP32 (rd rs : Nat) : Statement (.movP32 rd rs) := by
  intro h
  simp only [Instr.wf, fitsField, Bool.and_eq_true, decide_eq_true_eq] at h
  simp only [encode, Instr.profile, Profile.IW]
  omega

theorem addP32 (rd rs1 rs2 : Nat) : Statement (.addP32 rd rs1 rs2) := by
  intro h
  simp only [Instr.wf, fitsField, Bool.and_eq_true, decide_eq_true_eq] at h
  simp only [encode, Instr.profile, Profile.IW]
  omega

theorem loadP32 (rd ra : Nat) : Statement (.loadP32 rd ra) := by
  intro h
  simp only [Instr.wf, fitsField, Bool.and_eq_true, decide_eq_true_eq] at h
  simp only [encode, Instr.profile, Profile.IW]
  omega

theorem storeP32 (rs ra : Nat) : Statement (.storeP32 rs ra) := by
  intro h
  simp only [Instr.wf, fitsField, Bool.and_eq_true, decide_eq_true_eq] at h
  simp only [encode, Instr.profile, Profile.IW]
  omega

theorem setpixelP32 (x y r g b a : Nat) : Statement (.setpixelP32 x y r g b a) := by
  intro h
  simp only [Instr.wf, fitsField, Bool.and_eq_true, decide_eq_true_eq] at h
  simp only [encode, Instr.profile, Profile.IW]
  omega

theorem jmpP32 (addr : Nat) : Statement (.jmpP32 addr) := by
  intro h
  simp only [Instr.wf, fitsField, decide_eq_true_eq] at h
  simp only [encode, Instr.profile, Profile.IW]
  omega

theorem beqP32 (ra rb : Nat) (off : Int) : Statement (.beqP32 ra rb off) := by
  intro h
  have hs := signedField_lt 20 off
  simp only [Instr.wf, fitsField, Bool.and_eq_true, decide_eq_true_eq] at h
  simp only [encode, Instr.profile, Profile.IW]
  omega

theorem unknownP32 (op : Nat) : Statement (.unknownP32 op) := by
  intro h
  simp only [Instr.wf, inOpcodeRow, Bool.and_eq_true, decide_eq_true_eq] at h
  simp only [encode, Instr.profile, Profile.IW]
  omega

theorem nopP64 : Statement (.nopP64) := by
  intro h
  decide

theorem movP64 (rd rs : Nat) : Statement (.movP64 rd rs) := by
  intro h
  simp only [Instr.wf, fitsField, Bool.and_eq_true, decide_eq_true_eq] at h
  simp only [encode, Instr.profile, Profile.IW]
  omega

theorem addP64 (rd rs1 rs2 : Nat) : Statement (.addP64 rd rs1 rs2) := by
  intro h
  simp only [Instr.wf, fitsField, Bool.and_eq_true, decide_eq_true_eq] at h
  simp only [encode, Instr.profile, Profile.IW]
  omega

theorem loadP64 (rd addr : Nat) : Statement (.loadP64 rd addr) := by
  intro h
  simp only [Instr.wf, fitsField, Bool.and_eq_true, decide_eq_true_eq] at h
  simp only [encode, Instr.profile, Profile.IW]
  omega

theorem storeP64 (rs addr : Nat) : Statement (.storeP64 rs addr) := by
  intro h
  simp only [Instr.wf, fitsField, Bool.and_eq_true, decide_eq_true_eq] at h
  simp only [encode, Instr.profile, Profile.IW]
  omega

theorem setpixelP64 (x y r g b a : Nat) : Statement (.setpixelP64 x y r g b a) := by
  intro h
  simp only [Instr.wf, fitsField, Bool.and_eq_true, decide_eq_true_eq] at h
  simp only [encode, Instr.profile, Profile.IW]
  omega

theorem jmpP64 (addr : Nat) : Statement (.jmpP64 addr) := by
  intro h
  simp only [Instr.wf, fitsField, decide_eq_true_eq] at h
  simp only [encode, Instr.profile, Profile.IW]
  omega

theorem beqP64 (ra rb : Nat) (off : Int) : Statement (.beqP64 ra rb off) := by
  intro h
  have hs := signedField_lt 40 off
  simp only [Instr.wf, fitsField, Bool.and_eq_true, decide_eq_true_eq] at h
  simp only [encode, Instr.profile, Profile.IW]
  omega

theorem unknown8P64 (op : Nat) : Statement (.unknown8P64 op) := by
  intro h
  simp only [Instr.wf, inOpcodeRow, Bool.and_eq_true, decide_eq_true_eq] at h
  simp only [encode, Instr.profile, Profile.IW]
  omega

theorem unknown16P64 (op : Nat) : Statement (.unknown16P64 op) := by
  intro h
  simp only [Instr.wf, inOpcodeRow, Bool.and_eq_true, decide_eq_true_eq] at h
  simp only [encode, Instr.profile, Profile.IW]
  omega

theorem unknown32P64 (op : Nat) : Statement (.unknown32P64 op) := by
  intro h
  simp only [Instr.wf, inOpcodeRow, Bool.and_eq_true, decide_eq_true_eq] at h
  simp only [encode, Instr.profile, Profile.IW]
  omega

theorem unknown64P64 (op : Nat) : Statement (.unknown64P64 op) := by
  intro h
  simp only [Instr.wf, inOpcodeRow, Bool.and_eq_true, decide_eq_true_eq] at h
  simp only [encode, Instr.profile, Profile.IW]
  omega

theorem unknown128P64 (op : Nat) : Statement (.unknown128P64 op) := by
  intro h
  simp only [Instr.wf, inOpcodeRow, Bool.and_eq_true, decide_eq_true_eq] at h
  simp only [encode, Instr.profile, Profile.IW]
  omega

end Sys2Proof.Laws.EncodeFits
end

