-- ==== Sys2Proof/Tests/Slice0.lean ====
section
/-!
SUPPORT. Tests and witnesses. A word, a start state and an expected value are the ones spec/95_test_vectors.md
gives, or are worked out by hand from the rule a comment names. The witnesses meet all the hypotheses of one
statement together, at the ends of their ranges.
-/

namespace Sys2Proof.Tests

open Sys2Proof.Machine Sys2Proof.Claims

-- One theorem at a time: each kernel evaluation in its own thread would need too many stacks.
set_option Elab.async false

/-! ### Helpers -/

/-- A Running, loaded block of profile `p` at `pc` with some registers and bytes set. -/
def block (p : Profile) (pc : Nat) (regs : List (Nat × Nat)) (bytes : List (Nat × Byte)) : State :=
  let s := (((State.construct (Config.standard p)).setRunState .running).setLoaded).setPc pc
  let s := regs.foldl (fun s r => s.setReg r.1 r.2) s
  bytes.foldl (fun s b => s.memWriteBytes b.1 [b.2]) s

/-- The same with the word `w` at pc. -/
def atWord (p : Profile) (pc w : Nat) (regs : List (Nat × Nat)) (bytes : List (Nat × Byte)) : State :=
  (block p pc regs bytes).memWrite pc p.IB w

/-- The outcome is a next state of which `f` holds. -/
def nextIs (o : Host.Outcome State Fault Refusal) (f : State → Bool) : Bool :=
  match o with
  | .next t => f t
  | .fault _ => false
  | .refused _ => false

theorem next_of_nextIs {o : Host.Outcome State Fault Refusal} {f : State → Bool} (h : nextIs o f = true) :
    ∃ t, o = .next t := by
  cases o with
  | next t => exact ⟨t, rfl⟩
  | fault r => cases h
  | refused r => cases h

/-- The `k` bytes from `a` on. -/
def bytesAt (s : State) (a k : Nat) : List Nat := (List.range k).map (fun j => (s.byteAt (a + j)).toNat)

/-- The block is in the halt that rule R150 forces, and `es` are its events. -/
def haltedWith (s : State) (es : List Event) : Bool :=
  decide (s.runState = .halted) && decide (s.pc = 0) && decide (s.events = es)

/-- The event of the forced halt (rule R141). -/
def exhausted : Event := ⟨.error, .stopped, .cause .memoryExhausted⟩

/-! ### Well-formedness: one ill-formed term for each check -/

theorem test_wf_refuses_p32 :
    (Instr.movP32 16 0).wf = false ∧ (Instr.movP32 0 16).wf = false ∧
    (Instr.addP32 16 0 0).wf = false ∧ (Instr.addP32 0 16 0).wf = false ∧ (Instr.addP32 0 0 16).wf = false ∧
    (Instr.loadP32 16 0).wf = false ∧ (Instr.loadP32 0 16).wf = false ∧
    (Instr.storeP32 16 0).wf = false ∧ (Instr.storeP32 0 16).wf = false ∧
    (Instr.setpixelP32 64 0 0 0 0 0).wf = false ∧ (Instr.setpixelP32 0 64 0 0 0 0).wf = false ∧
    (Instr.setpixelP32 0 0 16 0 0 0).wf = false ∧ (Instr.setpixelP32 0 0 0 16 0 0).wf = false ∧
    (Instr.setpixelP32 0 0 0 0 16 0).wf = false ∧ (Instr.setpixelP32 0 0 0 0 0 16).wf = false ∧
    (Instr.jmpP32 (2 ^ 28)).wf = false ∧
    (Instr.beqP32 16 0 0).wf = false ∧ (Instr.beqP32 0 16 0).wf = false ∧
    (Instr.beqP32 0 0 (2 ^ 19)).wf = false ∧ (Instr.beqP32 0 0 (-(2 ^ 19) - 1)).wf = false ∧
    (Instr.unknownP32 7).wf = false ∧ (Instr.unknownP32 16).wf = false := by decide

theorem test_wf_refuses_p64 :
    (Instr.movP64 256 0).wf = false ∧ (Instr.movP64 0 256).wf = false ∧
    (Instr.addP64 256 0 0).wf = false ∧ (Instr.addP64 0 256 0).wf = false ∧ (Instr.addP64 0 0 256).wf = false ∧
    (Instr.loadP64 256 0).wf = false ∧ (Instr.loadP64 0 (2 ^ 48)).wf = false ∧
    (Instr.storeP64 256 0).wf = false ∧ (Instr.storeP64 0 (2 ^ 48)).wf = false ∧
    (Instr.setpixelP64 4096 0 0 0 0 0).wf = false ∧ (Instr.setpixelP64 0 4096 0 0 0 0).wf = false ∧
    (Instr.setpixelP64 0 0 256 0 0 0).wf = false ∧ (Instr.setpixelP64 0 0 0 256 0 0).wf = false ∧
    (Instr.setpixelP64 0 0 0 0 256 0).wf = false ∧ (Instr.setpixelP64 0 0 0 0 0 256).wf = false ∧
    (Instr.jmpP64 (2 ^ 56)).wf = false ∧
    (Instr.beqP64 256 0 0).wf = false ∧ (Instr.beqP64 0 256 0).wf = false ∧
    (Instr.beqP64 0 0 (2 ^ 39)).wf = false ∧ (Instr.beqP64 0 0 (-(2 ^ 39) - 1)).wf = false ∧
    (Instr.unknown8P64 7).wf = false ∧ (Instr.unknown8P64 16).wf = false ∧
    (Instr.unknown16P64 15).wf = false ∧ (Instr.unknown16P64 32).wf = false ∧
    (Instr.unknown32P64 31).wf = false ∧ (Instr.unknown32P64 64).wf = false ∧
    (Instr.unknown64P64 63).wf = false ∧ (Instr.unknown64P64 128).wf = false ∧
    (Instr.unknown128P64 127).wf = false ∧ (Instr.unknown128P64 256).wf = false := by decide

/-! ### Decoding: a word of every constructor, field by field from rules R63 and R64 -/

theorem test_decode_p32 :
    decodeTableWord 32 0b0000_1111_1111_1111_1111_1111_1111_1111 = some .nopP32 ∧
    decodeTableWord 32 0b0001_0101_0111_0000_0000_0000_0000_0000 = some (.movP32 5 7) ∧
    decodeTableWord 32 0b0010_0011_0001_0010_0000_0000_0000_0000 = some (.addP32 3 1 2) ∧
    decodeTableWord 32 0b0011_0010_0001_0000_0000_0000_0000_0000 = some (.loadP32 2 1) ∧
    decodeTableWord 32 0b0100_0010_0001_0000_0000_0000_0000_0000 = some (.storeP32 2 1) ∧
    decodeTableWord 32 0b0101_000001_000010_0011_0100_0101_0110 = some (.setpixelP32 1 2 3 4 5 6) ∧
    decodeTableWord 32 0b0110_1000_0000_0000_0000_0000_0001_0000 = some (.jmpP32 0x8000010) ∧
    decodeTableWord 32 0b0111_0001_0010_1111_1111_1111_1111_1100 = some (.beqP32 1 2 (-4)) ∧
    decodeTableWord 32 0b1010_0000_0000_0000_0000_0000_0000_0001 = some (.unknownP32 10) := by decide +kernel

theorem test_decode_p64 :
    decodeTableWord 64 0x00_ABCDEF00000000 = some .nopP64 ∧
    decodeTableWord 64 0x01_FF_01_0000000000 = some (.movP64 255 1) ∧
    decodeTableWord 64 0x02_03_01_02_00000000 = some (.addP64 3 1 2) ∧
    decodeTableWord 64 0x03_02_FEDCBA987654 = some (.loadP64 2 0xFEDCBA987654) ∧
    decodeTableWord 64 0x04_02_FEDCBA987654 = some (.storeP64 2 0xFEDCBA987654) ∧
    decodeTableWord 64 0x05_03F_040_01_02_03_04 = some (.setpixelP64 63 64 1 2 3 4) ∧
    decodeTableWord 64 0x06_80000000000010 = some (.jmpP64 0x80000000000010) ∧
    decodeTableWord 64 0x07_01_02_FFFFFFFFE8 = some (.beqP64 1 2 (-24)) ∧
    decodeTableWord 64 0x0F_00000000000000 = some (.unknown8P64 15) ∧
    decodeTableWord 64 0x10_00000000000000 = some (.unknown16P64 16) ∧
    decodeTableWord 64 0x3F_00000000000000 = some (.unknown32P64 63) ∧
    decodeTableWord 64 0x40_00000000000000 = some (.unknown64P64 64) ∧
    decodeTableWord 64 0x80_00000000000000 = some (.unknown128P64 128) := by decide +kernel

/-- The bytes of a word, and too few bytes for one (rules R60 and R61). -/
theorem test_decode_bytes :
    decodeBytes .p32 [0x0F, 0xF0, 0x8A, 0x52, 0x99] = .ok (.setpixelP32 10 10 15 0 0 15, [0x99]) ∧
    decodeBytes .p32 [0, 0, 0] = .error .tooFewBytes ∧ decodeTableWord 16 0 = none := by decide +kernel

/-- Part of Program B (spec/95_test_vectors.md section 5), with its label: the words of the lines from 0x34. -/
theorem test_assemble_loop :
    asmFrom .p32 [(['l'], 0x34)] 0x34
      [.label ['l'], .beq 7 4 (.bytes 16), .instr (.addP32 8 8 6), .instr (.addP32 7 7 2), .instr (.jmpP32 0x34),
        .bra (.label ['l']), .data 4, .word 0xFFFFFFFF, .halt] =
    some [0x77400010, 0x28860000, 0x27720000, 0x60000034, 0x700FFFF0, 4, 0xFFFFFFFF, 0x6FFFFFFF] := by
  decide +kernel

/-- A label is an address, and an operand or a datum that does not fit is refused (rules R80 to R82). -/
theorem test_assemble_refuses :
    asmLabels .p64 0 [.data 1, .label ['a'], .halt, .label ['b']] = [(['a'], 8), (['b'], 16)] ∧
    assemble .p32 [.instr (.jmpP32 (2 ^ 28))] = none ∧ assemble .p32 [.data (2 ^ 28)] = none ∧
    assemble .p32 [.bra (.label ['n'])] = none ∧ assemble .p32 [.word (2 ^ 32)] = none := by decide +kernel

/-- Lines of spec/95_test_vectors.md section 5 as text, with the listing's addresses as labels. -/
theorem test_assemble_text_p32 :
    assembleText .p32 ("0x10: DATA 0x200        ; 0x00000200  result address\n0x14: LOAD r1, [r0]\n" ++
      "0x34: loop: BEQ r7, r4, +16   ; to 0x44\n      ADD r8, r8, r6\n JMP 0x34\nSTORE r8, [r11]\n" ++
      "BEQ r0, r1, loop\n.word 0x80000000\nHALT\nSETPIXEL 10, 10, 15, 0, 0, 15\nMOV r5, r7\nNOP").toList =
    some [0x200, 0x31000000, 0x77400010, 0x28860000, 0x60000034, 0x48B00000, 0x701FFFF0, 0x80000000, 0x6FFFFFFF,
      0x528AF00F, 0x15700000, 0] := by decide +kernel

theorem test_assemble_text_p64 :
    assembleText .p64 "LOAD r1, [0x100]\nBRA -24\nSTORE r5, [0x4000]\n\nSETPIXEL 3, 2, 0, 255, 0, 255".toList =
      some [0x0301000000000100, 0x070000FFFFFFFFE8, 0x0405000000004000, 0x0500300200FF00FF] ∧
    assembleText .p64 "LOAD r1, [r0]".toList = none ∧ assembleText .p32 "LOAD r16, [r0]".toList = none ∧
    assembleText .p32 "BEQ r0, r0, 0x10".toList = none := by decide +kernel

/-! ### Instructions: the vectors of spec/95_test_vectors.md section 2 -/

theorem test_nop_p32_ignored_bits :
    nextIs (step (atWord .p32 0 0x0FFFFFFF [] [])) (fun t => decide (t.pc = 4) && decide (t.events = [])) := by
  decide +kernel

theorem test_nop_p32_at_the_top :
    nextIs (step (atWord .p32 0xFFFC 0 [] [])) (fun t => haltedWith t [exhausted]) := by decide +kernel

theorem test_mov_p32 :
    nextIs (step (atWord .p32 0 0x10F00000 [(15, 0xFFFFFFFF)] []))
      (fun t => decide (t.reg 0 = 0xFFFFFFFF) && decide (t.reg 15 = 0xFFFFFFFF) && decide (t.pc = 4)) := by
  decide +kernel

theorem test_add_p32_unsigned_wrap :
    nextIs (step (atWord .p32 0 0x23120000 [(1, 0xFFFFFFFF), (2, 1), (3, 0x55)] []))
      (fun t => decide (t.reg 3 = 0) && decide (t.reg 1 = 0xFFFFFFFF)) := by decide +kernel

theorem test_add_p32_all_same :
    nextIs (step (atWord .p32 0 0x21110000 [(1, 0x80000001)] [])) (fun t => decide (t.reg 1 = 2)) := by
  decide +kernel

theorem test_load_p32_misaligned :
    nextIs (step (atWord .p32 0 0x32100000 [(1, 0x101)]
      [(0x100, 0x78), (0x101, 0x56), (0x102, 0x34), (0x103, 0x12), (0x104, 0xAB)]))
      (fun t => decide (t.reg 2 = 0xAB123456)) := by decide +kernel

theorem test_load_p32_straddles_the_top :
    nextIs (step (atWord .p32 0 0x32100000 [(1, 0xFFFD), (2, 99)] [(0xFFFD, 1)]))
      (fun t => decide (t.reg 2 = 0) && decide (t.events = [])) := by decide +kernel

theorem test_store_p32 :
    nextIs (step (atWord .p32 0 0x42100000 [(1, 0x104), (2, 0xFF0000FF)] []))
      (fun t => decide (bytesAt t 0x103 6 = [0, 0xFF, 0, 0, 0xFF, 0])) := by decide +kernel

theorem test_store_p32_straddles_the_top :
    nextIs (step (atWord .p32 0 0x42100000 [(1, 0xFFFE), (2, 0xAABBCCDD)] []))
      (fun t => decide (bytesAt t 0xFFFC 4 = [0, 0, 0, 0]) && decide (bytesAt t 0 4 = [0, 0, 0x10, 0x42]) &&
        decide (t.events = [])) := by decide +kernel

theorem test_setpixel_p32 :
    nextIs (step (atWord .p32 0 0x5FFF1780 [] []))
      (fun t => decide (bytesAt t 0x3FFB 5 = [0, 0x11, 0x77, 0x88, 0])) := by decide +kernel

theorem test_setpixel_p32_over_itself :
    nextIs (step (atWord .p32 0 0x5000FFFF [] []))
      (fun t => decide (bytesAt t 0 5 = [0xFF, 0xFF, 0xFF, 0xFF, 0])) := by decide +kernel

theorem test_jmp_p32 :
    nextIs (step (atWord .p32 0x400 0x60000010 [] [])) (fun t => decide (t.pc = 0x10)) := by decide +kernel

theorem test_jmp_p32_to_s :
    nextIs (step (atWord .p32 0x10 0x60010000 [] [])) (fun t => haltedWith t [exhausted]) := by decide +kernel

theorem test_beq_p32_wraps_down :
    nextIs (step (atWord .p32 0x10 0x700FFFE0 [] [])) (fun t => decide (t.pc = 0xFFF0)) := by decide +kernel

theorem test_beq_p32_not_taken_at_the_top :
    nextIs (step (atWord .p32 0xFFFC 0x712FFFFC [(1, 1)] [])) (fun t => haltedWith t [exhausted]) := by
  decide +kernel

/-- A P32 block whose S does not divide 2^20, with one reading of the offset field
(spec/93_implementation_defined.md I3). -/
def oddSized (r : OffsetReading) : State :=
  State.construct { Config.standard .p32 with S := 98304, offsetReading := r }

/-- Worked out by hand: the field 0xFFFF8 at pc 0 is -8 mod 98304 = 98296 read signed (rule R131), and
1048568 mod 98304 = 65528 read unsigned (I3). -/
theorem test_beq_p32_offset_readings :
    nextIs (step ((oddSized .signed).withFetchWord 32 0x700FFFF8)) (fun t => decide (t.pc = 98296)) ∧
    nextIs (step ((oddSized .unsigned).withFetchWord 32 0x700FFFF8)) (fun t => decide (t.pc = 65528)) := by
  decide +kernel

theorem test_unknown_p32 :
    nextIs (step (atWord .p32 0x10 0x80000000 [] []))
      (fun t => decide (t.pc = 0x14) && decide (t.events = [⟨.warning, .unknownOpcode, .opcodeAt 8 0x10⟩])) := by
  decide +kernel

theorem test_unknown_p32_at_the_top :
    nextIs (step (atWord .p32 0xFFFC 0xF0000000 [] []))
      (fun t => haltedWith t [⟨.warning, .unknownOpcode, .opcodeAt 15 0xFFFC⟩, exhausted]) := by decide +kernel

theorem test_nop_p64 :
    nextIs (step (atWord .p64 8 0xABCDEF [] [])) (fun t => decide (t.pc = 0x10)) := by decide +kernel

theorem test_mov_p64 :
    nextIs (step (atWord .p64 0 0x01FF010000000000 [(1, 0x8000000000000000)] []))
      (fun t => decide (t.reg 255 = 0x8000000000000000) && decide (t.pc = 8)) := by decide +kernel

theorem test_add_p64 :
    nextIs (step (atWord .p64 0 0x0203010200000000 [(1, 0xFFFFFFFFFFFFFFFF), (2, 0xFFFFFFFFFFFFFFFF)] []))
      (fun t => decide (t.reg 3 = 0xFFFFFFFFFFFFFFFE)) := by decide +kernel

theorem test_load_p64_last_word :
    nextIs (step (atWord .p64 0 0x03020003FFFFFFF8 [] [(2 ^ 34 - 8, 0x11), (2 ^ 34 - 1, 0x88)]))
      (fun t => decide (t.reg 2 = 0x8800000000000011)) := by decide +kernel

theorem test_load_p64_straddles_the_top :
    nextIs (step (atWord .p64 0 0x03020003FFFFFFF9 [(2, 5)] [])) (fun t => decide (t.reg 2 = 0)) := by
  decide +kernel

theorem test_store_p64 :
    nextIs (step (atWord .p64 0 0x0402000000000100 [(2, 0x11223344FF0000FF)] []))
      (fun t => decide (bytesAt t 0x100 8 = [0xFF, 0, 0, 0xFF, 0x44, 0x33, 0x22, 0x11])) := by decide +kernel

theorem test_store_p64_straddles_the_top :
    nextIs (step (atWord .p64 0 0x04020003FFFFFFFC [(2, 0x0102030405060708)] []))
      (fun t => decide (bytesAt t (2 ^ 34 - 8) 8 = [0, 0, 0, 0, 0, 0, 0, 0])) := by decide +kernel

theorem test_setpixel_p64 :
    nextIs (step (atWord .p64 0 0x0503F03F01020304 [] []))
      (fun t => decide (bytesAt t 0x3FFC 5 = [1, 2, 3, 4, 0])) := by decide +kernel

theorem test_setpixel_p64_out_of_range :
    nextIs (step (atWord .p64 0 0x0504000001020304 [] []))
      (fun t => decide (bytesAt t 0x100 4 = [0, 0, 0, 0]) && decide (t.pc = 8) && decide (t.events = [])) := by
  decide +kernel

theorem test_jmp_p64 :
    nextIs (step (atWord .p64 0 0x06000003FFFFFFF8 [] [])) (fun t => decide (t.pc = 0x3FFFFFFF8)) := by
  decide +kernel

theorem test_jmp_p64_to_s :
    nextIs (step (atWord .p64 0 0x0600000400000000 [] [])) (fun t => haltedWith t [exhausted]) := by decide +kernel

theorem test_beq_p64_wraps_down :
    nextIs (step (atWord .p64 0 0x070000FFFFFFFFF8 [] [])) (fun t => decide (t.pc = 0x3FFFFFFF8)) := by
  decide +kernel

theorem test_beq_p64_not_taken :
    nextIs (step (atWord .p64 0x28 0x070102FFFFFFFFE8 [(1, 9), (2, 8)] [])) (fun t => decide (t.pc = 0x30)) := by
  decide +kernel

theorem test_unknown8_p64 :
    nextIs (step (atWord .p64 0 0x0800000000000000 [] []))
      (fun t => decide (t.pc = 8) && decide (t.events = [⟨.warning, .unknownOpcode, .opcodeAt 8 0⟩])) := by
  decide +kernel

theorem test_unknown16_p64 :
    nextIs (step (atWord .p64 0x10 0x1F00000000000000 [] []))
      (fun t => decide (t.pc = 0x18) && decide (t.events = [⟨.warning, .unknownOpcode, .opcodeAt 31 0x10⟩])) := by
  decide +kernel

theorem test_unknown32_p64 :
    nextIs (step (atWord .p64 0x10 0x2000000000000000 [] []))
      (fun t => decide (t.pc = 0x18) && decide (t.events = [⟨.warning, .unknownOpcode, .opcodeAt 32 0x10⟩])) := by
  decide +kernel

theorem test_unknown64_p64 :
    nextIs (step (atWord .p64 0x10 0x7F00000000000000 [] []))
      (fun t => decide (t.pc = 0x18) && decide (t.events = [⟨.warning, .unknownOpcode, .opcodeAt 127 0x10⟩])) := by
  decide +kernel

theorem test_unknown128_p64_at_the_top :
    nextIs (step (atWord .p64 (2 ^ 34 - 8) 0xFF00000000000000 [] []))
      (fun t => haltedWith t [⟨.warning, .unknownOpcode, .opcodeAt 255 (2 ^ 34 - 8)⟩, exhausted]) := by
  decide +kernel

/-! ### Host commands and loads: sections 3 and 4 of spec/95_test_vectors.md -/

theorem test_commands_of_a_fresh_block :
    nextIs (State.reset.command .start) (fun t => decide (t.runState = .idle) &&
      decide (t.events = [⟨.error, .programNotLoaded, .noInfo⟩])) ∧
    nextIs (State.reset.command .pause) (fun t => decide (t.runState = .paused) &&
      decide (t.events = [⟨.warning, .paused, .noInfo⟩])) ∧
    nextIs (State.reset.command .step) (fun t => decide (t = State.reset)) := by decide +kernel

theorem test_commands_of_a_running_block :
    nextIs ((block .p32 0x40 [] []).runCommands [.pause, .start])
      (fun t => decide (t.runState = .running) && decide (t.pc = 0x40) &&
        decide (t.events = [⟨.warning, .paused, .noInfo⟩])) ∧
    nextIs ((block .p32 0x40 [] []).command .stop)
      (fun t => haltedWith t [⟨.error, .stopped, .cause .host⟩]) ∧
    nextIs ((block .p32 0x40 [] []).runCommands [.stop, .step, .start])
      (fun t => decide (t.runState = .running) && decide (t.pc = 0) && decide (t.events.length = 1)) := by
  decide +kernel

theorem test_load_big_and_little :
    nextIs (State.reset.command (.load [0x52, 0x8A, 0xF0, 0x0F])) (fun t =>
      decide (bytesAt t 0 4 = [0x0F, 0xF0, 0x8A, 0x52]) && decide (t.fetchWord = 0x528AF00F)) ∧
    nextIs ((State.construct { Config.standard .p32 with fileOrder := .little }).command
      (.load [0x52, 0x8A, 0xF0, 0x0F])) (fun t =>
      decide (bytesAt t 0 4 = [0x52, 0x8A, 0xF0, 0x0F]) && decide (t.fetchWord = 0x0FF08A52)) ∧
    nextIs ((State.construct (Config.standard .p64)).command (.load [5, 0, 0xA0, 0x0A, 0xFF, 0, 0, 0xFF]))
      (fun t => decide (t.fetchWord = 0x0500A00AFF0000FF)) := by decide +kernel

theorem test_load_partial_and_empty :
    nextIs (State.reset.command (.load [0x60, 0, 0, 0x10, 0x12, 0x34])) (fun t =>
      decide (bytesAt t 0 8 = [0x10, 0, 0, 0x60, 0, 0, 0x34, 0x12]) &&
      decide (t.events = [⟨.success, .loaded, .byteCount 6⟩])) ∧
    nextIs (State.reset.command (.load [])) (fun t => decide (t.mem = []) && t.loaded &&
      decide (t.events = [⟨.success, .loaded, .byteCount 0⟩])) := by decide +kernel

/-- A drain gives the oldest events and leaves the rest (rule R31). -/
theorem test_drain :
    (State.reset.pause.stop.drain 1).1 = [⟨.warning, .paused, .noInfo⟩] ∧
    (State.reset.pause.stop.drain 1).2.events = [⟨.error, .stopped, .cause .host⟩] := by decide +kernel

theorem test_reset_memory_is_canonical : State.reset.mem.wf = true ∧ Memory.wf [(0, 0)] = false ∧
    Memory.wf [(1, 1), (1, 2)] = false := by decide

/-- The word is placed at pc, or at 0 when pc is too near the top; the other profile's word gets its own block. -/
theorem test_with_fetch_word :
    (State.reset.withFetchWord 32 0x60000010).fetchInstr = .jmpP32 16 ∧
    (State.reset.withFetchWord 64 0x0600000000000010).fetchInstr = .jmpP64 16 ∧
    ((block .p32 0xFFFE [] []).withFetchWord 32 0x60000010).pc = 0 ∧
    ((block .p32 0xFFFC [] []).withFetchWord 32 0x60000010).pc = 0xFFFC := by decide +kernel

/-! ### Witnesses: encoding -/

/-- The largest operands of each P32 and P64 field are well formed, and so are the ends of the offset ranges. -/
theorem witness_EncodedBytesDecodeBack :
    (Instr.movP32 15 15).wf = true ∧ (Instr.setpixelP32 63 63 15 15 15 15).wf = true ∧
    (Instr.jmpP32 (2 ^ 28 - 1)).wf = true ∧ (Instr.beqP32 15 15 (-(2 ^ 19))).wf = true ∧
    (Instr.beqP32 0 0 (2 ^ 19 - 1)).wf = true ∧ (Instr.unknownP32 15).wf = true ∧
    (Instr.addP64 255 255 255).wf = true ∧ (Instr.loadP64 255 (2 ^ 48 - 1)).wf = true ∧
    (Instr.setpixelP64 4095 4095 255 255 255 255).wf = true ∧ (Instr.beqP64 255 255 (-(2 ^ 39))).wf = true ∧
    (Instr.unknown8P64 8).wf = true ∧ (Instr.unknown128P64 255).wf = true := by decide

/-- The largest operand of every field of every clause, and one refused instruction. -/
theorem witness_EncodingFollowsShiftFormulas :
    (15 < 16 ∧ 255 < 256 ∧ 63 < 64 ∧ 4095 < 4096 ∧ 2 ^ 48 - 1 < 2 ^ 48 ∧ 2 ^ 28 - 1 < 2 ^ 28 ∧
      2 ^ 56 - 1 < 2 ^ 56) ∧
    ((-(2 ^ 19) : Int) ≤ -(2 ^ 19) ∧ (-(2 ^ 19) : Int) < 2 ^ 19 ∧ (-(2 ^ 39) : Int) ≤ 2 ^ 39 - 1 ∧
      (2 ^ 39 - 1 : Int) < 2 ^ 39) ∧
    (encode (.addP32 15 15 15) = 0x2FFF0000 ∧ encode (.loadP64 255 (2 ^ 48 - 1)) = 0x03FFFFFFFFFFFFFF ∧
      encode (.beqP32 15 15 (-(2 ^ 19))) = 0x7FF80000 ∧ encode (.beqP64 255 255 (2 ^ 39 - 1)) = 0x07FFFF7FFFFFFFFF) ∧
    (Instr.jmpP32 (2 ^ 28)).wf = false := by decide +kernel

/-- The largest fields and ignored bits of the clauses, and an offset field on each side of its sign bit. -/
theorem witness_DecodeReadsFieldsAlone :
    (2 ^ 28 - 1 < 2 ^ 28 ∧ 2 ^ 20 - 1 < 2 ^ 20 ∧ 2 ^ 16 - 1 < 2 ^ 16 ∧ 15 < 16 ∧ 63 < 64 ∧ 2 ^ 56 - 1 < 2 ^ 56 ∧
      2 ^ 40 - 1 < 2 ^ 40 ∧ 2 ^ 32 - 1 < 2 ^ 32 ∧ 2 ^ 48 - 1 < 2 ^ 48 ∧ 255 < 256 ∧ 4095 < 4096) ∧
    (decodeWord .p32 0x7FF7FFFF = .beqP32 15 15 524287 ∧ decodeWord .p32 0x7FF80000 = .beqP32 15 15 (-524288)) ∧
    (8 ≤ 8 ∧ 15 < 16 ∧ 16 ≤ 16 ∧ 31 < 32 ∧ 32 ≤ 32 ∧ 63 < 64 ∧ 64 ≤ 64 ∧ 127 < 128 ∧ 128 ≤ 255 ∧ 255 < 256) ∧
    (decodeWord .p64 0x0FFFFFFFFFFFFFFF = .unknown8P64 15 ∧ decodeWord .p64 0x7FFFFFFFFFFFFFFF = .unknown64P64 127) := by
  decide +kernel

/-- The largest datum of each profile, the last word of memory, and the standard blocks. -/
theorem witness_PseudoInstructionsBehave :
    (2 ^ 28 - 1 < 2 ^ (Profile.p32.IW - Profile.p32.OPW) ∧ 2 ^ 56 - 1 < 2 ^ (Profile.p64.IW - Profile.p64.OPW)) ∧
    (State.reset.cfg.profile = .p32 ∧ State.reset.mem.wf = true ∧ 0xFFFC + Profile.p32.WB ≤ State.reset.cfg.S) ∧
    (State.reset.cfg = Config.standard .p32 ∧ (block .p64 8 [] []).cfg = Config.standard .p64) ∧
    (State.reset.cfg.Valid ∧ (oddSized .unsigned).cfg.Valid) := by decide +kernel

/-! ### Witnesses: registers and memory -/

theorem witness_RegistersHoldWhatWasWritten :
    15 < State.reset.cfg.profile.N ∧ 2 ^ 32 - 1 < 2 ^ State.reset.cfg.profile.W := by decide

theorem witness_RegisterIndexSaturates :
    15 < 2 ^ State.reset.cfg.profile.RFW ∧ 255 < 2 ^ (block .p64 0 [] []).cfg.profile.RFW := by decide +kernel

/-- In bounds at the last word, and out of bounds one byte further. -/
theorem witness_MemWriteStoresLittleEndian :
    State.reset.mem.wf = true ∧ 2 ^ 32 - 1 < 2 ^ (8 * 4) ∧ 0xFFFC + 4 ≤ State.reset.cfg.S ∧
    State.reset.cfg.S < 0xFFFD + 4 := by decide

theorem witness_MemWriteBytesStoresEachByte :
    State.reset.mem.wf = true ∧ 0xFFFF + ([7] : List Byte).length ≤ State.reset.cfg.S ∧
    State.reset.cfg.S < 0xFFFF + ([7, 8] : List Byte).length := by decide

theorem witness_WriteThenReadGivesValue :
    State.reset.mem.wf = true ∧ 0xFFFC + 4 ≤ State.reset.cfg.S ∧ 0x80000001 < 2 ^ (8 * 4) := by decide

theorem witness_OutOfBoundsIsSilent :
    State.reset.cfg.S < 0xFFFD + 4 ∧ State.reset.cfg.S < 0xFFFF + ([7, 8] : List Byte).length := by decide

theorem witness_CanonicalMemoriesAreEqual :
    Memory.wf [(3, 7)] = true ∧ ∀ a, Memory.get [(3, 7)] a = Memory.get [(3, 7)] a := ⟨by decide, fun _ => rfl⟩

/-- P32: the last pixel, red; P64: the last two pixels of the framebuffer. -/
theorem witness_StoreAndSetPixelAgree :
    (let s := block .p32 0x4000 [(1, 0x3FFC), (2, 0xFF0000FF)] [];
      s.cfg.profile = .p32 ∧ s.cfg.Valid ∧ (Instr.storeP32 2 1).wf = true ∧
      (Instr.setpixelP32 63 63 15 0 0 15).wf = true ∧ 63 < s.cfg.fbW ∧ 63 < s.cfg.fbH ∧
      s.reg 1 = s.cfg.fbBase + 63 * s.cfg.fbW * 4 + 63 * 4 ∧
      s.reg 2 = 17 * 15 + 2 ^ 8 * (17 * 0) + 2 ^ 16 * (17 * 0) + 2 ^ 24 * (17 * 15)) ∧
    (let s := block .p64 0x4000 [(2, 0x0807060504030201)] [];
      s.cfg.profile = .p64 ∧ s.cfg.Valid ∧ (Instr.storeP64 2 0x3FF8).wf = true ∧
      (Instr.setpixelP64 62 63 1 2 3 4).wf = true ∧ (Instr.setpixelP64 63 63 5 6 7 8).wf = true ∧
      62 + 1 < s.cfg.fbW ∧ 63 < s.cfg.fbH ∧ 0x3FF8 = s.cfg.fbBase + 63 * s.cfg.fbW * 4 + 62 * 4 ∧
      s.reg 2 = 1 + 2 ^ 8 * 2 + 2 ^ 16 * 3 + 2 ^ 24 * 4 + 2 ^ 32 * 5 + 2 ^ 40 * 6 + 2 ^ 48 * 7 + 2 ^ 56 * 8) := by
  decide +kernel

/-! ### Witnesses: the instructions

A block whose next pc is the last word, and one whose next pc is S: the two clauses of every `Ends`. -/

/-- The block one word below its top, with a register at each address the clauses split at. -/
def below (p : Profile) : State :=
  block p (p.defaultS - 2 * p.IB) [(1, p.defaultS - p.WB), (2, p.defaultS - p.WB + 1), (3, 7), (4, 7)] [(0x20, 9)]

/-- The block at its last word. -/
def top (p : Profile) : State := block p (p.defaultS - p.IB) [(1, 1)] []

/-- What the statements of the register, memory and control instructions assume of a state, at both ends. -/
theorem witness_instruction_states :
    ∀ p : Profile, (below p).cfg.profile = p ∧ (below p).cfg.Valid ∧ (below p).mem.wf = true ∧
      (below p).pc + p.IB < (below p).cfg.S ∧
      (top p).cfg.profile = p ∧ (top p).cfg.Valid ∧ (top p).mem.wf = true ∧ (top p).cfg.S ≤ (top p).pc + p.IB := by
  intro p; cases p <;> decide +kernel

theorem witness_NopOnlyAdvances :
    ((top .p32).cfg.profile = .p32 ∧ (top .p32).cfg.Valid ∧ 2 ^ 28 - 1 < 2 ^ 28) ∧
    ((top .p64).cfg.profile = .p64 ∧ (top .p64).cfg.Valid ∧ 2 ^ 56 - 1 < 2 ^ 56) := by decide +kernel

theorem witness_MovCopiesRegister :
    ((top .p32).cfg.profile = .p32 ∧ (top .p32).cfg.Valid ∧ 15 < 16 ∧ 0 < 16 ∧ 2 ^ 20 - 1 < 2 ^ 20) ∧
    ((top .p64).cfg.profile = .p64 ∧ (top .p64).cfg.Valid ∧ 255 < 256 ∧ 0 < 256 ∧ 2 ^ 40 - 1 < 2 ^ 40) := by
  decide +kernel

theorem witness_AddWrapsAtWidth :
    ((below .p32).cfg.profile = .p32 ∧ (below .p32).cfg.Valid ∧ 15 < 16 ∧ 1 < 16 ∧ 1 < 16 ∧ 2 ^ 16 - 1 < 2 ^ 16) ∧
    ((below .p64).cfg.profile = .p64 ∧ (below .p64).cfg.Valid ∧ 255 < 256 ∧ 1 < 256 ∧ 1 < 256 ∧
      2 ^ 32 - 1 < 2 ^ 32) := by decide +kernel

theorem witness_AddIsTwosComplementSum :
    15 < (below .p32).cfg.profile.N ∧ 255 < (below .p64).cfg.profile.N := by decide +kernel

/-- An address in bounds at the last word, and one out of bounds by a byte. -/
theorem witness_LoadReadsWord :
    ((below .p32).cfg.profile = .p32 ∧ (below .p32).cfg.Valid ∧ 15 < 16 ∧ 2 < 16 ∧ 2 ^ 20 - 1 < 2 ^ 20 ∧
      (below .p32).reg 1 + 4 ≤ (below .p32).cfg.S ∧ ¬(below .p32).reg 2 + 4 ≤ (below .p32).cfg.S) ∧
    ((below .p64).cfg.profile = .p64 ∧ (below .p64).cfg.Valid ∧ 255 < 256 ∧ 2 ^ 34 - 8 < 2 ^ 48 ∧
      2 ^ 34 - 8 + 8 ≤ (below .p64).cfg.S ∧ 2 ^ 48 - 1 < 2 ^ 48 ∧ ¬2 ^ 34 - 7 + 8 ≤ (below .p64).cfg.S) := by
  decide +kernel

theorem witness_StoreWritesWord :
    ((below .p32).cfg.profile = .p32 ∧ (below .p32).cfg.Valid ∧ (below .p32).mem.wf = true ∧ 15 < 16 ∧ 2 < 16 ∧
      2 ^ 20 - 1 < 2 ^ 20 ∧ (below .p32).reg 1 + 4 ≤ (below .p32).cfg.S ∧
      (below .p32).cfg.S < (below .p32).reg 2 + 4) ∧
    ((below .p64).cfg.profile = .p64 ∧ (below .p64).cfg.Valid ∧ (below .p64).mem.wf = true ∧ 255 < 256 ∧
      2 ^ 34 - 8 < 2 ^ 48 ∧ 2 ^ 34 - 8 + 8 ≤ (below .p64).cfg.S ∧ (below .p64).cfg.S < 2 ^ 34 - 7 + 8) := by
  decide +kernel

/-- The last pixel in range, and the first coordinates out of range: P32's fields reach a smaller framebuffer's
edge, P64's the standard one's. -/
theorem witness_SetPixelWritesScaledPixel :
    ((below .p32).cfg.profile = .p32 ∧ (below .p32).cfg.Valid ∧ (below .p32).mem.wf = true ∧ 63 < 64 ∧ 15 < 16 ∧
      63 < (below .p32).cfg.fbW ∧ 63 < (below .p32).cfg.fbH) ∧
    (let s := State.construct { Config.standard .p32 with fbW := 63, fbH := 63 };
      s.cfg.profile = .p32 ∧ s.cfg.Valid ∧ s.mem.wf = true ∧ ¬(63 < s.cfg.fbW ∧ 0 < s.cfg.fbH) ∧
      ¬(0 < s.cfg.fbW ∧ 63 < s.cfg.fbH)) ∧
    ((below .p64).cfg.profile = .p64 ∧ (below .p64).cfg.Valid ∧ (below .p64).mem.wf = true ∧ 4095 < 4096 ∧ 255 < 256 ∧
      (63 < (below .p64).cfg.fbW ∧ 63 < (below .p64).cfg.fbH) ∧ ¬(64 < (below .p64).cfg.fbW ∧ 0 < (below .p64).cfg.fbH) ∧
      ¬(0 < (below .p64).cfg.fbW ∧ 64 < (below .p64).cfg.fbH)) := by decide +kernel

theorem witness_ChannelScalingTable : 1 ≤ 1 ∧ 1 ≤ 8 ∧ 1 ≤ 2 ^ 1 - 1 ∧ 8 ≤ 8 ∧ 255 ≤ 2 ^ 8 - 1 := by decide

/-- Targets just below S and at S. -/
theorem witness_JmpSetsPc :
    ((below .p32).cfg.profile = .p32 ∧ (below .p32).cfg.Valid ∧ 65535 < 2 ^ 28 ∧ 65535 < (below .p32).cfg.S ∧
      65536 < 2 ^ 28 ∧ (below .p32).cfg.S ≤ 65536) ∧
    ((below .p64).cfg.profile = .p64 ∧ (below .p64).cfg.Valid ∧ 2 ^ 34 - 1 < 2 ^ 56 ∧ 2 ^ 34 - 1 < (below .p64).cfg.S ∧
      2 ^ 34 < 2 ^ 56 ∧ (below .p64).cfg.S ≤ 2 ^ 34) := by decide +kernel

/-- Equal and unequal registers, and the two ends of the offset field, in a block that reads it signed, in one whose
S divides 2^BOW, and in one that reads it unsigned where S does not. -/
theorem witness_BeqBranchesModS :
    ((below .p32).cfg.profile = .p32 ∧ (below .p32).cfg.Valid ∧ 3 < 16 ∧ 4 < 16 ∧ 2 ^ 20 - 1 < 2 ^ 20 ∧
      (below .p32).reg 3 = (below .p32).reg 4 ∧ (top .p32).reg 0 ≠ (top .p32).reg 1) ∧
    ((below .p64).cfg.profile = .p64 ∧ (below .p64).cfg.Valid ∧ 3 < 256 ∧ 4 < 256 ∧ 2 ^ 39 < 2 ^ 40 ∧
      (below .p64).reg 3 = (below .p64).reg 4 ∧ (top .p64).reg 0 ≠ (top .p64).reg 1) ∧
    ((below .p32).cfg.offsetReading = .signed ∧ (below .p32).cfg.S ∣ 2 ^ 20 ∧
      (below .p64).cfg.offsetReading = .signed ∧ (below .p64).cfg.S ∣ 2 ^ 40) ∧
    (let s := oddSized .unsigned;
      s.cfg.profile = .p32 ∧ s.cfg.Valid ∧ ¬s.cfg.S ∣ 2 ^ 20 ∧ s.cfg.offsetReading = .unsigned ∧
      s.reg 3 = s.reg 4) ∧
    (let s := (State.construct { Config.standard .p64 with S := 98304, offsetReading := .unsigned }).setReg 1 1;
      s.cfg.profile = .p64 ∧ s.cfg.Valid ∧ ¬s.cfg.S ∣ 2 ^ 40 ∧ s.cfg.offsetReading = .unsigned ∧
      s.reg 3 = s.reg 4 ∧ s.reg 0 ≠ s.reg 1) := by decide +kernel

/-- The first and the last opcode of each row, with the largest ignored bits. -/
theorem witness_UnknownOpcodeIsReported :
    ((top .p32).cfg.profile = .p32 ∧ (top .p32).cfg.Valid ∧ 8 ≤ 8 ∧ 15 ≤ 15 ∧ 2 ^ 28 - 1 < 2 ^ 28) ∧
    ((top .p64).cfg.profile = .p64 ∧ (top .p64).cfg.Valid ∧ 16 ≤ 16 ∧ 31 ≤ 31 ∧ 32 ≤ 32 ∧ 63 ≤ 63 ∧ 64 ≤ 64 ∧
      127 ≤ 127 ∧ 128 ≤ 128 ∧ 255 ≤ 255 ∧ 2 ^ 56 - 1 < 2 ^ 56) := by decide +kernel

theorem witness_OffsetSignednessIsImmaterial :
    ((top .p32).cfg.Valid ∧ (top .p32).cfg.S ∣ 2 ^ (top .p32).cfg.profile.BOW ∧
      2 ^ 20 - 1 < 2 ^ (top .p32).cfg.profile.BOW) ∧
    ((top .p64).cfg.Valid ∧ (top .p64).cfg.S ∣ 2 ^ (top .p64).cfg.profile.BOW ∧
      2 ^ 40 - 1 < 2 ^ (top .p64).cfg.profile.BOW) ∧
    (let s := oddSized .signed;
      s.cfg.Valid ∧ s.cfg.offsetReading = .signed ∧ 2 ^ 20 - 1 < 2 ^ s.cfg.profile.BOW) ∧
    (let s := oddSized .unsigned;
      s.cfg.Valid ∧ s.cfg.offsetReading = .unsigned ∧ 2 ^ 20 - 1 < 2 ^ s.cfg.profile.BOW) := by decide +kernel

/-- A pc the rule gives that stays below S, one that reaches it, a jump and a taken branch. -/
theorem witness_PcUpdateRule :
    ((below .p32).cfg.profile = Instr.nopP32.profile ∧ (below .p32).cfg.Valid ∧
      (pcSet .nopP32 (below .p32)).getD ((below .p32).pc + 4) < (below .p32).cfg.S) ∧
    ((top .p32).cfg.profile = Instr.nopP32.profile ∧ (top .p32).cfg.Valid ∧
      (top .p32).cfg.S ≤ (pcSet .nopP32 (top .p32)).getD ((top .p32).pc + 4)) ∧
    ((top .p64).cfg.profile = (Instr.jmpP64 (2 ^ 34)).profile ∧ (top .p64).cfg.Valid ∧
      (top .p64).cfg.S ≤ (pcSet (.jmpP64 (2 ^ 34)) (top .p64)).getD ((top .p64).pc + 8)) ∧
    ((top .p64).cfg.profile = (Instr.beqP64 0 0 8).profile ∧ (top .p64).cfg.Valid ∧
      (pcSet (.beqP64 0 0 8) (top .p64)).getD ((top .p64).pc + 8) < (top .p64).cfg.S) ∧
    ((oddSized .unsigned).cfg.profile = (Instr.beqP32 0 0 (-8)).profile ∧ (oddSized .unsigned).cfg.Valid ∧
      pcSet (.beqP32 0 0 (-8)) (oddSized .unsigned) = some 65528) := by decide +kernel

/-- A register write, a store in bounds and one out of bounds, and a pixel; and a step that ends in the halt. -/
theorem witness_OneDestinationPerInstruction :
    (below .p32).mem.wf = true ∧ (top .p32).mem.wf = true ∧
    ((Instr.movP32 15 1).wf = true ∧ ∃ t, exec (.movP32 15 1) (below .p32) = .next t) ∧
    ((Instr.storeP32 3 1).wf = true ∧ bytesWritten (.storeP32 3 1) (below .p32) = some (0xFFFC, 4) ∧
      ∃ t, exec (.storeP32 3 1) (below .p32) = .next t) ∧
    ((Instr.storeP32 3 2).wf = true ∧ bytesWritten (.storeP32 3 2) (below .p32) = none ∧
      ∃ t, exec (.storeP32 3 2) (below .p32) = .next t) ∧
    ((Instr.setpixelP32 63 63 1 2 3 4).wf = true ∧
      bytesWritten (.setpixelP32 63 63 1 2 3 4) (below .p32) = some (0x3FFC, 4) ∧
      ∃ t, exec (.setpixelP32 63 63 1 2 3 4) (below .p32) = .next t) ∧
    (Instr.nopP32.wf = true ∧ ∃ t, exec .nopP32 (top .p32) = .next t) :=
  ⟨by decide +kernel, by decide +kernel, ⟨by decide, _, exec_movP32 rfl 15 1⟩,
    ⟨by decide, by decide +kernel, _, exec_storeP32 rfl 3 1⟩,
    ⟨by decide, by decide +kernel, _, exec_storeP32 rfl 3 2⟩,
    ⟨by decide, by decide +kernel, _, exec_setpixelP32 rfl 63 63 1 2 3 4⟩, ⟨rfl, _, exec_nopP32 rfl⟩⟩

/-- An instruction that goes on, one that halts, and one that emits. -/
theorem witness_ControlStateIsInvisible :
    (∃ t, exec (.addP32 1 2 3) (below .p32) = .next t) ∧ (∃ t, exec .nopP32 (top .p32) = .next t) ∧
    (∃ t, exec (.unknown128P64 255) (below .p64) = .next t) :=
  ⟨⟨_, exec_addP32 rfl 1 2 3⟩, ⟨_, exec_nopP32 rfl⟩, ⟨_, exec_unknown128P64 rfl 255⟩⟩

theorem witness_LoadAfterStoreGivesStored :
    ((below .p32).cfg.profile = .p32 ∧ (below .p32).mem.wf = true ∧ 15 < 16 ∧
      (below .p32).reg 1 + 4 ≤ (below .p32).cfg.S ∧ ∃ t, exec (.storeP32 3 1) (below .p32) = .next t) ∧
    ((below .p64).cfg.profile = .p64 ∧ (below .p64).mem.wf = true ∧ 255 < 256 ∧
      2 ^ 34 - 8 + 8 ≤ (below .p64).cfg.S ∧ ∃ t, exec (.storeP64 3 (2 ^ 34 - 8)) (below .p64) = .next t) :=
  ⟨⟨rfl, by decide +kernel, by decide, by decide +kernel, _, exec_storeP32 rfl 3 1⟩,
    ⟨rfl, by decide +kernel, by decide, by decide +kernel, _, exec_storeP64 rfl 3 (2 ^ 34 - 8)⟩⟩

/-! ### Witnesses: the step -/

theorem witness_StepRunsFetchedInstruction :
    (below .p32).runState = .running ∧ (below .p64).runState = .running := by decide +kernel

/-- The bytes of an instruction at the last word of memory. -/
theorem witness_StepRunsEncodedInstruction :
    let s := atWord .p32 0xFFFC 0x528AF00F [] [];
    let i := Instr.setpixelP32 10 10 15 0 0 15;
    s.runState = .running ∧ i.wf = true ∧ i.profile = s.cfg.profile ∧ s.pc + s.cfg.profile.IB ≤ s.cfg.S ∧
    ∀ (j : Nat) (h : j < (encodeBytes i).length), s.byteAt (s.pc + j) = (encodeBytes i)[j] := by decide +kernel

theorem witness_StepIsGated :
    State.reset.runState ≠ .running ∧ State.reset.pause.runState ≠ .running ∧
    State.reset.stop.runState ≠ .running := by decide

/-- The first and the last pc whose fetch is out of bounds. -/
theorem witness_FetchOutOfBoundsHalts :
    (let s := block .p32 0xFFFD [] [];
      s.runState = .running ∧ s.cfg.Valid ∧ s.pc < s.cfg.S ∧ s.cfg.S < s.pc + s.cfg.profile.IB) ∧
    (let s := block .p64 (2 ^ 34 - 1) [] [];
      s.runState = .running ∧ s.cfg.Valid ∧ s.pc < s.cfg.S ∧ s.cfg.S < s.pc + s.cfg.profile.IB) := by
  decide +kernel

theorem witness_StoreIsSeenByNextFetch :
    (let s := below .p32;
      s.cfg.profile = .p32 ∧ s.cfg.Valid ∧ s.mem.wf = true ∧ s.reg 1 = s.pc + 4 ∧ s.pc + 8 ≤ s.cfg.S) ∧
    (let s := below .p64;
      s.cfg.profile = .p64 ∧ s.cfg.Valid ∧ s.mem.wf = true ∧ 2 ^ 34 - 8 = s.pc + 8 ∧ s.pc + 16 ≤ s.cfg.S) := by
  decide +kernel

/-- The four self-loops of the statement. -/
theorem witness_SelfLoopNeverHalts :
    (let s := atWord .p32 0x10 0x60000010 [] [];
      s.runState = .running ∧ s.pc < s.cfg.S ∧ s.fetchInstr = .jmpP32 s.pc) ∧
    (let s := atWord .p64 0x10 0x0600000000000010 [] [];
      s.runState = .running ∧ s.pc < s.cfg.S ∧ s.fetchInstr = .jmpP64 s.pc) ∧
    (let s := atWord .p32 0x20 0x70000000 [] [];
      s.runState = .running ∧ s.pc < s.cfg.S ∧ s.reg 0 = s.reg 0 ∧ s.fetchInstr = .beqP32 0 0 0) ∧
    (let s := atWord .p64 0x20 0x0701020000000000 [(1, 5), (2, 5)] [];
      s.runState = .running ∧ s.pc < s.cfg.S ∧ s.reg 1 = s.reg 2 ∧ s.fetchInstr = .beqP64 1 2 0) := by
  decide +kernel

/-- Where the word fits at pc, and where it does not. -/
theorem witness_PlacedWordRunsNext :
    ((top .p32).cfg.Valid ∧ (top .p32).mem.wf = true) ∧
    ((block .p64 (2 ^ 34 - 1) [] []).cfg.Valid ∧ (block .p64 (2 ^ 34 - 1) [] []).mem.wf = true) := by decide +kernel

/-! ### Witnesses: reset, host commands and events -/

theorem witness_ConstructionValues :
    15 < (Config.standard .p32).profile.N ∧ 255 < (Config.standard .p64).profile.N := by decide

theorem witness_StartNeedsLoadedProgram :
    State.reset.loaded = false ∧ (block .p32 0 [] []).loaded = true := by decide +kernel

theorem witness_PauseKeepsPc : (block .p32 0x40 [] []).loaded = true := by decide +kernel

/-- A target at S. -/
theorem witness_ForcedHaltIsStop : (top .p32).cfg.S ≤ 65536 := by decide +kernel

/-- The invariant holds of an unloaded, of a loaded Idle, and of a Running block. -/
theorem witness_RunStateTable :
    (State.reset.Inv ∧ State.reset.loaded = false ∧ State.reset.runState ≠ .running) ∧
    ((State.reset.load []).Inv ∧ (State.reset.load []).loaded = true) ∧
    ((below .p32).Inv ∧ (below .p32).runState = .running) := by
  refine ⟨⟨⟨?_, ?_, ?_, ?_, ?_, ?_, ?_, ?_⟩, ?_, ?_⟩, ⟨⟨?_, ?_, ?_, ?_, ?_, ?_, ?_, ?_⟩, ?_⟩,
    ⟨?_, ?_, ?_, ?_, ?_, ?_, ?_, ?_⟩, ?_⟩ <;> decide +kernel

/-- A two-word file, the second word partial: a stored word, a word past the file, and, in a small block, a word
that is out of bounds. -/
theorem witness_LoadStoresFileWords :
    (State.reset.mem.wf = true ∧ 1 * State.reset.cfg.profile.WB < ([1, 2, 3, 4, 5] : List Byte).length ∧
      3 < State.reset.cfg.profile.WB ∧ (1 + 1) * State.reset.cfg.profile.WB ≤ State.reset.cfg.S) ∧
    ([1, 2, 3, 4, 5] : List Byte).length ≤ 2 * State.reset.cfg.profile.WB ∧
    (let s := State.construct { Config.standard .p32 with S := 6, fbW := 1, fbH := 1 };
      s.mem.wf = true ∧ 1 * s.cfg.profile.WB < ([1, 2, 3, 4, 5] : List Byte).length ∧
      s.cfg.S < (1 + 1) * s.cfg.profile.WB) := by decide +kernel

theorem witness_BootRunsFirstFileWord :
    (Config.standard .p32).Valid ∧ { Config.standard .p64 with fileOrder := .little }.Valid := by decide

/-- A command with one event, one with none, and a step. -/
theorem witness_EventsAreAppendedInOrder :
    State.reset.command .pause = .next State.reset.pause ∧
    (State.reset.load []).command .start = .next ((State.reset.load []).setRunState .running) ∧
    State.reset.command .step = .next State.reset ∧
    ∃ t, (atWord .p32 0xFFFC 0xF0000000 [] []).command .step = .next t :=
  ⟨rfl, rfl, rfl, next_of_nextIs test_unknown_p32_at_the_top⟩

/-- The last byte of the last pixel. -/
theorem witness_SnapshotShowsMemory :
    (below .p32).cfg.Valid ∧ 63 < (below .p32).cfg.fbW ∧ 63 < (below .p32).cfg.fbH ∧ 3 < 4 := by decide +kernel

theorem witness_ViewWriteAliasesMemory :
    (below .p64).cfg.Valid ∧ (below .p64).mem.wf = true ∧ 63 < (below .p64).cfg.fbW ∧ 63 < (below .p64).cfg.fbH ∧
    3 < 4 := by decide +kernel

/-! ### Witnesses: invariants -/

/-- A block whose pc is the last address, and a command of it. -/
theorem witness_PcStaysBelowS :
    (Config.standard .p32).Valid ∧
    (let s := block .p32 0xFFFF [] [];
      s.cfg.Valid ∧ s.pc < s.cfg.S ∧ s.command .stop = .next s.stop) :=
  ⟨by decide, by decide +kernel, by decide +kernel, rfl⟩

theorem witness_ConfigurationIsFixed :
    State.reset.runCommands [.load [1], .start, .stop] = .next ((State.reset.load [1]).setRunState .running).stop := rfl

theorem witness_ConstructionMeetsInvariant : (Config.standard .p64).Valid := by decide

/-- A Running block that meets the invariant and whose step halts it. -/
theorem witness_StepKeepsInvariant : (top .p32).Inv ∧ ∃ t, step (top .p32) = .next t :=
  ⟨⟨by decide +kernel, by decide +kernel, by decide +kernel, by decide +kernel, by decide +kernel,
    by decide +kernel, by decide +kernel, by decide +kernel⟩,
    next_of_nextIs (f := fun t => haltedWith t [exhausted]) (by decide +kernel)⟩

theorem witness_EveryRunIsSafe : (below .p64).Inv :=
  ⟨by decide +kernel, by decide +kernel, by decide +kernel, by decide +kernel, by decide +kernel,
    by decide +kernel, by decide +kernel, by decide +kernel⟩

end Sys2Proof.Tests
end

section
/-!
PROOFS. The scope of the block (spec/00_scope.md rule R6): its construction arguments are fixed. What every run of
commands keeps follows from what every command keeps.
-/

namespace Sys2Proof.Machine

variable {s t u : State}

/-! ### Runs of commands -/

theorem State.runCommands_cons_next {c : Command} {cs : List Command} :
    s.runCommands (c :: cs) = .next u ↔ ∃ t, s.command c = .next t ∧ t.runCommands cs = .next u := by
  simp only [State.runCommands]
  cases s.command c <;> simp

/-- What every command keeps, every run of commands keeps (rule R53). -/
theorem State.runCommands_keeps {P : State → Prop}
    (hcommand : ∀ {s t : State} {c : Command}, s.command c = .next t → P s → P t)
    {cs : List Command} (h : s.runCommands cs = .next t) (hs : P s) : P t := by
  induction cs generalizing s with
  | nil => cases h; exact hs
  | cons c cs ih =>
    obtain ⟨u, hc, hu⟩ := State.runCommands_cons_next.mp h
    exact ih hu (hcommand hc hs)

/-! ### The configuration under an instruction, a step and a command -/

theorem Effect.cfg_eq (e : Effect s t) : t.cfg = s.cfg := by
  cases e with
  | nothing => rfl
  | register rd v => exact s.setReg_cfg rd v
  | memory a bs _ => exact s.memWriteBytes_cfg a bs
  | event op => exact s.emit_cfg _

theorem exec_cfg {i : Instr} (h : exec i s = .next t) : t.cfg = s.cfg := by
  obtain ⟨-, u, o, he, rfl⟩ := exec_next h
  exact (u.retire_cfg o).trans he.cfg_eq

theorem step_cfg (h : step s = .next t) : t.cfg = s.cfg := by
  obtain ⟨-, rfl⟩ | ⟨-, he⟩ := step_next h
  · rfl
  · exact exec_cfg he

@[simp] theorem State.load_cfg (s : State) (bs : List Byte) : (s.load bs).cfg = s.cfg := by
  simp [State.load]

@[simp] theorem State.start_cfg (s : State) : s.start.cfg = s.cfg := by
  unfold State.start
  split
  · exact s.setRunState_cfg _
  · exact s.emit_cfg _

@[simp] theorem State.pause_cfg (s : State) : s.pause.cfg = s.cfg := rfl

@[simp] theorem State.stop_cfg (s : State) : s.stop.cfg = s.cfg := rfl

theorem State.command_cfg {c : Command} (h : s.command c = .next t) : t.cfg = s.cfg := by
  cases c with
  | load bs => cases h; exact s.load_cfg bs
  | start => cases h; exact s.start_cfg
  | pause => cases h; exact s.pause_cfg
  | stop => cases h; exact s.stop_cfg
  | step => exact step_cfg h

/-- Settles O52: no command changes the configuration, so no run of commands does. -/
theorem configurationIsFixed : Obligations.ConfigurationIsFixed := by
  intro s t cs h
  exact State.runCommands_keeps (P := fun r => r.cfg = s.cfg)
    (fun hc hr => (State.command_cfg hc).trans hr) h rfl

end Sys2Proof.Machine
end

section
/-!
PROOFS. The architectural state (spec/10_state.md): the register file, the byte array and its representation, the
values at construction, the event FIFO, what the host reads, pc below S, the invariant under a step, and that the
control state is invisible to instructions.
-/

namespace Sys2Proof.Machine

open Sys2Proof.Claims

variable {s t u : State}

/-! ### The invariant under a step -/

theorem exec_inv {i : Instr} (hs : s.Inv) (hr : s.runState = .running) (h : exec i s = .next t) : t.Inv := by
  obtain ⟨-, u, o, he, rfl⟩ := exec_next h
  obtain ⟨hu, hur⟩ := he.keeps hs
  exact hu.retire (hur.trans hr) o

theorem step_inv (hs : s.Inv) (h : step s = .next t) : t.Inv := by
  obtain ⟨-, rfl⟩ | ⟨hr, he⟩ := step_next h
  · exact hs
  · exact exec_inv hs hr he

/-- Settles O54: outside Running a step changes nothing, and in Running its one effect keeps the invariant and the
halt check restores `pc < S`. -/
theorem stepKeepsInvariant : Obligations.StepKeepsInvariant := fun _ _ => step_inv

/-! ### Construction -/

/-- Settles O40: rule R32's table, field by field. -/
theorem constructionValues : Obligations.ConstructionValues := fun c =>
  ⟨fun i _ => State.construct_reg c i, State.construct_pc c, fun _ => rfl, State.construct_runState c,
    State.construct_loaded c, State.construct_events c, State.construct_cfg c⟩

theorem State.construct_inv {c : Config} (h : c.Valid) : (State.construct c).Inv where
  cfg_valid := h
  pc_lt := by
    rw [State.construct_pc, State.construct_cfg]
    exact Nat.zero_lt_of_lt h.1
  mem_wf := rfl
  mem_within := rfl
  running_loaded := by rw [State.construct_runState]; intro q; cases q
  halted_pc := fun _ => State.construct_pc c
  idle_pc := fun _ => State.construct_pc c
  events_legal := rfl

theorem Config.standard_valid (p : Profile) : (Config.standard p).Valid := by cases p <;> decide

/-- Settles O53: every constructed block is Idle at pc 0 with empty memory and no events. -/
theorem constructionMeetsInvariant : Obligations.ConstructionMeetsInvariant :=
  ⟨fun _ => State.construct_inv, Config.standard_valid, State.construct_inv (Config.standard_valid .p32)⟩

/-! ### The register file -/

/-- Settles O7: read after write of the register file, at indices the clamp leaves alone. -/
theorem registersHoldWhatWasWritten : Obligations.RegistersHoldWhatWasWritten := by
  intro s i v hi hv
  refine ⟨?_, fun j hj hji => ?_⟩
  · rw [s.setReg_reg, if_pos rfl, Nat.mod_eq_of_lt hv]
  · rw [s.setReg_reg, s.clamp_of_lt hj, s.clamp_of_lt hi, if_neg hji]

@[simp] theorem State.clamp_clamp (s : State) (i : Nat) : s.clamp (s.clamp i) = s.clamp i :=
  s.clamp_of_lt (s.clamp_lt i)

theorem State.reg_clamp (s : State) (i : Nat) : s.reg (s.clamp i) = s.reg i := by
  simp only [State.reg, State.clamp_clamp]

theorem State.setReg_clamp (s : State) (i v : Nat) : s.setReg (s.clamp i) v = s.setReg i v := by
  simp only [State.setReg, State.clamp_clamp]

/-- Every register index a field can hold names a register (rule R23). -/
theorem Profile.N_eq_two_pow (p : Profile) : p.N = 2 ^ p.RFW := by cases p <;> rfl

/-- Settles O8: the ports clamp, and clamping twice is clamping once. -/
theorem registerIndexSaturates : Obligations.RegisterIndexSaturates := by
  intro s i v
  refine ⟨(s.reg_clamp i).symm, (s.setReg_clamp i v).symm, s.setReg_events i v, fun hi => ?_⟩
  exact s.clamp_of_lt (by rwa [Profile.N_eq_two_pow])

/-! ### The representation of memory -/

theorem Memory.wfFrom_cons {lo a : Nat} {v : Byte} {m : Memory} :
    Memory.wfFrom lo ((a, v) :: m) = true ↔ lo ≤ a ∧ v ≠ 0 ∧ Memory.wfFrom (a + 1) m = true := by
  simp [Memory.wfFrom, and_assoc]

theorem Memory.get_cons_self (a : Nat) (v : Byte) (m : Memory) : Memory.get ((a, v) :: m) a = v := if_pos rfl

theorem Memory.get_cons_of_ne {a b : Nat} (v : Byte) (m : Memory) (h : a ≠ b) :
    Memory.get ((a, v) :: m) b = Memory.get m b := if_neg h

/-- The first listed address of a canonical memory is the least that reads nonzero. -/
theorem Memory.head_le_of_get_ne_zero {lo a b : Nat} {v : Byte} {m : Memory}
    (hm : Memory.wfFrom lo ((a, v) :: m) = true) (hb : Memory.get ((a, v) :: m) b ≠ 0) : a ≤ b := by
  by_contra hlt
  obtain ⟨-, hv, ht⟩ := Memory.wfFrom_cons.mp hm
  exact hb (Memory.get_of_lt (Memory.wfFrom_cons.mpr ⟨le_rfl, hv, ht⟩) (Nat.lt_of_not_le hlt))

theorem Memory.eq_of_get_eq {lo : Nat} {m n : Memory} (hm : Memory.wfFrom lo m = true)
    (hn : Memory.wfFrom lo n = true) (h : ∀ a, m.get a = n.get a) : m = n := by
  induction m generalizing lo n with
  | nil =>
    cases n with
    | nil => rfl
    | cons d n =>
      obtain ⟨b, w⟩ := d
      exact absurd ((h b).trans (Memory.get_cons_self b w n)).symm (Memory.wfFrom_cons.mp hn).2.1
  | cons c m ih =>
    obtain ⟨a, v⟩ := c
    obtain ⟨-, hv, hm'⟩ := Memory.wfFrom_cons.mp hm
    have hav := Memory.get_cons_self a v m
    cases n with
    | nil => exact absurd (hav.symm.trans (h a)) hv
    | cons d n =>
      obtain ⟨b, w⟩ := d
      obtain ⟨-, hw, hn'⟩ := Memory.wfFrom_cons.mp hn
      have hbw := Memory.get_cons_self b w n
      obtain rfl : a = b := Nat.le_antisymm
        (Memory.head_le_of_get_ne_zero hm (by rwa [h b, hbw]))
        (Memory.head_le_of_get_ne_zero hn (by rwa [← h a, hav]))
      obtain rfl : v = w := by rw [← hav, h a, hbw]
      rw [ih hm' hn' fun b => ?_]
      by_cases hb : a = b
      · subst hb
        rw [Memory.get_of_lt hm' (by omega), Memory.get_of_lt hn' (by omega)]
      · rw [← Memory.get_cons_of_ne v m hb, h b, Memory.get_cons_of_ne v n hb]

/-- Settles O14, by induction on the two lists: their heads are the least address that reads nonzero. -/
theorem canonicalMemoriesAreEqual : Obligations.CanonicalMemoriesAreEqual := fun _ _ hm hn => Memory.eq_of_get_eq hm hn

/-! ### What the commands do to pc and to the events -/

section HostCommands

variable (s)

@[simp] theorem State.load_pc (bs : List Byte) : (s.load bs).pc = s.pc := by simp [State.load]
@[simp] theorem State.load_events (bs : List Byte) :
    (s.load bs).events = s.events ++ [Event.loaded bs.length] := by simp [State.load]

@[simp] theorem State.start_pc : s.start.pc = s.pc := by
  unfold State.start
  split
  · exact s.setRunState_pc _
  · exact s.emit_pc _
theorem State.start_events :
    s.start.events = if s.loaded then s.events else s.events ++ [Event.programNotLoaded] := by
  unfold State.start
  split
  · exact s.setRunState_events _
  · exact s.emit_events _

@[simp] theorem State.pause_pc : s.pause.pc = s.pc := rfl
@[simp] theorem State.pause_events : s.pause.events = s.events ++ [Event.paused] := rfl

@[simp] theorem State.stop_pc : s.stop.pc = 0 := s.stopWith_pc .host
@[simp] theorem State.stop_events : s.stop.events = s.events ++ [Event.stopped .host] := rfl

end HostCommands

/-! ### pc below S -/

theorem exec_pc_lt {i : Instr} (hv : s.cfg.Valid) (h : exec i s = .next t) : t.pc < s.cfg.S := by
  obtain ⟨-, u, o, he, rfl⟩ := exec_next h
  rw [← he.cfg_eq] at hv ⊢
  exact State.retire_pc_lt hv o

theorem State.command_pc_lt {c : Command} (hv : s.cfg.Valid) (hpc : s.pc < s.cfg.S) (h : s.command c = .next t) :
    t.pc < s.cfg.S := by
  cases c with
  | load bs => cases h; rwa [s.load_pc]
  | start => cases h; rwa [s.start_pc]
  | pause => cases h; exact hpc
  | stop => cases h; rw [s.stop_pc]; exact Nat.zero_lt_of_lt hpc
  | step =>
    obtain ⟨-, rfl⟩ | ⟨-, he⟩ := step_next h
    · exact hpc
    · exact exec_pc_lt hv he

/-- Rule R6 leaves IB addresses between S and 2^W, so `pc + IB` does not wrap (rule R25). -/
theorem State.next_pc_lt_width (hv : s.cfg.Valid) (hpc : s.pc < s.cfg.S) :
    s.pc + s.cfg.profile.IB < 2 ^ s.cfg.profile.W := by
  obtain ⟨-, -, -, -, hS⟩ := hv
  omega

/-- Settles O51: the halt check bounds the pc of an instruction, and no other command raises pc. -/
theorem pcStaysBelowS : Obligations.PcStaysBelowS := by
  refine ⟨fun c hv => (State.construct_inv hv).pc_lt, fun s t c hv hpc h => ?_, fun s => State.next_pc_lt_width⟩
  rw [State.command_cfg h]
  exact State.command_pc_lt hv hpc h

/-! ### The event FIFO -/

/-- The events one step at `pc0` can add, in their order (rules R93, R141 and R150). -/
def StepEvents (pc0 : Nat) (added : List Event) : Prop :=
  added = [] ∨ added = [Event.stopped .memoryExhausted] ∨ (∃ k, added = [Event.unknownOpcode k pc0]) ∨
    ∃ k, added = [Event.unknownOpcode k pc0, Event.stopped .memoryExhausted]

theorem StepEvents.legal {pc0 : Nat} {added : List Event} (h : StepEvents pc0 added) :
    added.all Event.legal = true := by
  rcases h with rfl | rfl | ⟨k, rfl⟩ | ⟨k, rfl⟩ <;> rfl

/-- An effect adds no event, or UNKNOWN_OPCODE at the step's own pc (rule R93). -/
theorem Effect.events_cases (e : Effect s u) :
    u.events = s.events ∨ ∃ k, u.events = s.events ++ [Event.unknownOpcode k s.pc] := by
  cases e with
  | nothing => exact .inl rfl
  | register rd v => exact .inl (s.setReg_events rd v)
  | memory a bs _ => exact .inl (s.memWriteBytes_events a bs)
  | event op => exact .inr ⟨op, s.emit_events _⟩

theorem State.retire_events_cases (s : State) (o : Option Nat) :
    (s.retire o).events = s.events ∨ (s.retire o).events = s.events ++ [Event.stopped .memoryExhausted] := by
  obtain ⟨-, h⟩ | ⟨-, h⟩ := s.retire_cases o <;> rw [h]
  · exact .inr (s.stopWith_events _)
  · exact .inl (s.setPc_events _)

theorem exec_events {i : Instr} (h : exec i s = .next t) :
    ∃ added, t.events = s.events ++ added ∧ StepEvents s.pc added := by
  obtain ⟨-, u, o, he, rfl⟩ := exec_next h
  obtain hu | ⟨k, hu⟩ := he.events_cases <;> obtain ho | ho := u.retire_events_cases o <;> rw [ho, hu]
  · exact ⟨[], (List.append_nil _).symm, .inl rfl⟩
  · exact ⟨_, rfl, .inr (.inl rfl)⟩
  · exact ⟨_, rfl, .inr (.inr (.inl ⟨k, rfl⟩))⟩
  · exact ⟨_, List.append_assoc _ _ _, .inr (.inr (.inr ⟨k, rfl⟩))⟩

theorem step_events (h : step s = .next t) : ∃ added, t.events = s.events ++ added ∧ StepEvents s.pc added := by
  obtain ⟨-, rfl⟩ | ⟨-, he⟩ := step_next h
  · exact ⟨[], (List.append_nil _).symm, .inl rfl⟩
  · exact exec_events he

/-- Any command but `step` adds at most one event, a legal one (rules R141 and R145). -/
theorem State.command_events {c : Command} (hc : c ≠ .step) (h : s.command c = .next t) :
    ∃ added, t.events = s.events ++ added ∧ added.all Event.legal = true ∧ added.length ≤ 1 := by
  cases c with
  | load bs => cases h; exact ⟨_, s.load_events bs, rfl, le_rfl⟩
  | start =>
    cases h
    rw [s.start_events]
    split
    · exact ⟨[], (List.append_nil _).symm, rfl, Nat.zero_le 1⟩
    · exact ⟨_, rfl, rfl, le_rfl⟩
  | pause => cases h; exact ⟨_, s.pause_events, rfl, le_rfl⟩
  | stop => cases h; exact ⟨_, s.stop_events, rfl, le_rfl⟩
  | step => exact absurd rfl hc

/-- Settles O48: a step adds its effect's event and then its halt's, any other command at most one. -/
theorem eventsAreAppendedInOrder : Obligations.EventsAreAppendedInOrder := by
  intro s t c h
  by_cases hc : c = .step
  · subst hc
    obtain ⟨added, hadded, hstep⟩ := step_events h
    exact ⟨added, hadded, hstep.legal, fun hne => absurd rfl hne, fun _ => hstep⟩
  · obtain ⟨added, hadded, hlegal, hlen⟩ := State.command_events hc h
    exact ⟨added, hadded, hlegal, fun _ => hlen, fun heq => absurd heq hc⟩

/-! ### What the host reads -/

/-- The bytes of a framebuffer, row-major and four to a pixel, stay within it (rule R28). -/
theorem pixelByte_lt {w h x y c : Nat} (hx : x < w) (hy : y < h) (hc : c < 4) :
    y * w * 4 + x * 4 + c < w * h * 4 := by
  have hrow : (y + 1) * w ≤ h * w := Nat.mul_le_mul_right w hy
  rw [Nat.add_mul, Nat.mul_comm h w] at hrow
  omega

/-- A read of one byte in bounds is that byte (rule R41). -/
theorem State.memRead_one {a : Nat} (h : a < s.cfg.S) : s.memRead a 1 = (s.byteAt a).toNat :=
  s.memRead_inBounds h

theorem View.addr_of_lt {v : View} {x y c : Nat} (hx : x < v.width) (hy : y < v.height) (hc : c < 4) :
    v.addr x y c = some (v.base + y * v.width * 4 + x * 4 + c) := if_pos ⟨hx, hy, hc⟩

theorem State.snapshot_framebuffer {k : Nat} (hk : k < s.cfg.fbW * s.cfg.fbH * 4) :
    s.snapshot.framebuffer[k]? = some (s.byteAt (s.cfg.fbBase + k)) := by
  simp [State.snapshot, hk]

/-- Rule R6 keeps every pixel byte below S. -/
theorem State.pixelByte_lt_S {x y c : Nat} (hv : s.cfg.Valid) (hx : x < s.cfg.fbW) (hy : y < s.cfg.fbH)
    (hc : c < 4) : s.cfg.fbBase + y * s.cfg.fbW * 4 + x * 4 + c < s.cfg.S := by
  obtain ⟨-, hfb, -⟩ := hv
  have hpixel := pixelByte_lt hx hy hc
  omega

theorem State.viewRead_framebuffer {x y c : Nat} (hv : s.cfg.Valid) (hx : x < s.cfg.fbW) (hy : y < s.cfg.fbH)
    (hc : c < 4) :
    s.viewRead s.framebuffer x y c =
      some (s.byteAt (s.cfg.fbBase + y * s.cfg.fbW * 4 + x * 4 + c)).toNat := by
  rw [State.viewRead, View.addr_of_lt hx hy hc, Option.map_some]
  exact congrArg some (State.memRead_one (State.pixelByte_lt_S hv hx hy hc))

/-- Settles O49: snapshot and view both read M at the pixel byte's address, which rule R6 keeps below S. -/
theorem snapshotShowsMemory : Obligations.SnapshotShowsMemory := by
  intro s x y c hv hx hy hc
  refine ⟨rfl, rfl, ?_, State.viewRead_framebuffer hv hx hy hc⟩
  rw [State.snapshot_framebuffer (pixelByte_lt hx hy hc)]
  simp only [Nat.add_assoc]

/-! ### Control state is invisible to instructions -/

/-- `u` is `t` with other control state, and each added the same events to those it began with, `es` for `t` and
`es'` for `u` (rules R34 and R97). -/
def SameButControl (es es' : List Event) (t u : State) : Prop :=
  ∃ r l added, t.events = es ++ added ∧ u = withControl t r l (es' ++ added)

section SameButControl

variable {es es' : List Event}

theorem sameButControl_withControl (s : State) (r : RunState) (l : Bool) (es : List Event) :
    SameButControl s.events es s (withControl s r l es) :=
  ⟨r, l, [], (List.append_nil _).symm, by rw [List.append_nil]⟩

theorem SameButControl.setReg (h : SameButControl es es' t u) (i v : Nat) :
    SameButControl es es' (t.setReg i v) (u.setReg i v) := by
  obtain ⟨r, l, added, hev, rfl⟩ := h
  exact ⟨r, l, added, hev, rfl⟩

theorem SameButControl.setPc (h : SameButControl es es' t u) (a : Nat) :
    SameButControl es es' (t.setPc a) (u.setPc a) := by
  obtain ⟨r, l, added, hev, rfl⟩ := h
  exact ⟨r, l, added, hev, rfl⟩

theorem SameButControl.setMem (h : SameButControl es es' t u) (m : Memory) :
    SameButControl es es' (t.setMem m) (u.setMem m) := by
  obtain ⟨r, l, added, hev, rfl⟩ := h
  exact ⟨r, l, added, hev, rfl⟩

theorem SameButControl.setRunState (h : SameButControl es es' t u) (q : RunState) :
    SameButControl es es' (t.setRunState q) (u.setRunState q) := by
  obtain ⟨r, l, added, hev, rfl⟩ := h
  exact ⟨q, l, added, hev, rfl⟩

theorem SameButControl.emit (h : SameButControl es es' t u) (e : Event) :
    SameButControl es es' (t.emit e) (u.emit e) := by
  obtain ⟨r, l, added, hev, rfl⟩ := h
  refine ⟨r, l, added ++ [e], ?_, ?_⟩
  · rw [t.emit_events, hev, List.append_assoc]
  · simp [State.emit, withControl]

theorem SameButControl.cfg_eq (h : SameButControl es es' t u) : u.cfg = t.cfg := by
  obtain ⟨r, l, added, -, rfl⟩ := h
  rfl

theorem SameButControl.reg_eq (h : SameButControl es es' t u) (i : Nat) : u.reg i = t.reg i := by
  obtain ⟨r, l, added, -, rfl⟩ := h
  rfl

theorem SameButControl.pc_eq (h : SameButControl es es' t u) : u.pc = t.pc := by
  obtain ⟨r, l, added, -, rfl⟩ := h
  rfl

theorem SameButControl.mem_eq (h : SameButControl es es' t u) : u.mem = t.mem := by
  obtain ⟨r, l, added, -, rfl⟩ := h
  rfl

theorem SameButControl.events_eq (h : SameButControl es es' t u) :
    ∃ added, t.events = es ++ added ∧ u.events = es' ++ added := by
  obtain ⟨r, l, added, hev, rfl⟩ := h
  exact ⟨added, hev, rfl⟩

theorem SameButControl.memWriteBytes (h : SameButControl es es' t u) (a : Nat) (bs : List Byte) :
    SameButControl es es' (t.memWriteBytes a bs) (u.memWriteBytes a bs) := by
  unfold State.memWriteBytes State.inBounds
  rw [h.cfg_eq, h.mem_eq]
  split
  · exact h.setMem _
  · exact h

theorem SameButControl.drawPixel (h : SameButControl es es' t u) (x y r g b a : Nat) :
    SameButControl es es' (t.drawPixel x y r g b a) (u.drawPixel x y r g b a) := by
  unfold State.drawPixel State.pixelInRange State.pixelAddr State.pixelBytes
  rw [h.cfg_eq]
  split
  · exact h.memWriteBytes _ _
  · exact h

theorem SameButControl.retire (h : SameButControl es es' t u) (o : Option Nat) :
    SameButControl es es' (t.retire o) (u.retire o) := by
  unfold State.retire
  rw [h.cfg_eq, h.pc_eq]
  dsimp only
  split
  · exact ((h.setRunState _).setPc _).emit _
  · exact h.setPc _

end SameButControl

/-- The decoder's profile check reads the configuration alone, so two runs pass it together. -/
theorem State.onProfile_sameButControl {p : Profile} {r : RunState} {l : Bool} {es : List Event} {t' u : State}
    (h : s.onProfile p t' = .next t) (htu : SameButControl s.events es t' u) :
    ∃ v, (withControl s r l es).onProfile p u = .next v ∧ SameButControl s.events es t v := by
  obtain ⟨hp, rfl⟩ := s.onProfile_next h
  exact ⟨u, State.onProfile_same _ u hp, htu⟩

/-- An instruction run from other control state ends in the same state but for control state: each arm's effect and
the end of its step do the same to both. -/
theorem exec_sameButControl {i : Instr} (r : RunState) (l : Bool) (es : List Event) (h : exec i s = .next t) :
    ∃ u, exec i (withControl s r l es) = .next u ∧ SameButControl s.events es t u := by
  have hs := sameButControl_withControl s r l es
  cases i with
  | nopP32 | nopP64 | jmpP32 _ | jmpP64 _ | beqP32 _ _ _ | beqP64 _ _ _ =>
    exact State.onProfile_sameButControl h (hs.retire _)
  | movP32 _ _ | movP64 _ _ | addP32 _ _ _ | addP64 _ _ _ | loadP32 _ _ | loadP64 _ _ =>
    exact State.onProfile_sameButControl h ((hs.setReg _ _).retire _)
  | storeP32 _ _ | storeP64 _ _ =>
    exact State.onProfile_sameButControl h ((hs.memWriteBytes _ _).retire _)
  | setpixelP32 _ _ _ _ _ _ | setpixelP64 _ _ _ _ _ _ =>
    exact State.onProfile_sameButControl h ((hs.drawPixel _ _ _ _ _ _).retire _)
  | unknownP32 _ | unknown8P64 _ | unknown16P64 _ | unknown32P64 _ | unknown64P64 _ | unknown128P64 _ =>
    exact State.onProfile_sameButControl h ((hs.emit _).retire _)

/-- Settles O30: two runs that differ only in control state stay so, instruction by instruction. -/
theorem controlStateIsInvisible : Obligations.ControlStateIsInvisible := by
  intro i s t r l es h
  obtain ⟨u, hu, hsame⟩ := exec_sameButControl r l es h
  obtain ⟨added, ht, hev⟩ := hsame.events_eq
  exact ⟨u, added, hu, hsame.reg_eq, hsame.pc_eq, hsame.mem_eq, ht, hev⟩

end Sys2Proof.Machine
end

section
/-!
PROOFS. Memory (spec/20_memory.md): the two ports and their silent bounds policy, the presenter's view, and that
STORE, SETPIXEL and the fetch all act on the one byte array.
-/

namespace Sys2Proof.Machine

open Sys2Proof.Claims

variable {s : State}

/-! ### The read port -/

theorem Memory.readLE_eq_sum (m : Memory) (a k : Nat) :
    m.readLE a k = ∑ j ∈ Finset.range k, (m.get (a + j)).toNat * 2 ^ (8 * j) := by
  induction k generalizing a with
  | zero => rfl
  | succ k ih =>
    have hshift : ∀ j, 256 * ((m.get (a + 1 + j)).toNat * 2 ^ (8 * j)) =
        (m.get (a + (j + 1))).toNat * 2 ^ (8 * (j + 1)) := by
      intro j
      rw [show a + 1 + j = a + (j + 1) by omega, Nat.mul_add, Nat.pow_add]
      ring
    rw [Memory.readLE, ih, Finset.sum_range_succ', Finset.mul_sum, Finset.sum_congr rfl fun j _ => hshift j]
    simp [Nat.add_comm]

/-- Settles O9: the bytes' sum by induction on the width. -/
theorem memReadIsLittleEndianSum : Obligations.MemReadIsLittleEndianSum := by
  intro s a k
  split
  · rw [s.memRead_inBounds ‹_›]
    exact s.mem.readLE_eq_sum a k
  · exact s.memRead_outOfBounds (by omega)

/-- A read depends on the configuration and on memory alone. -/
theorem State.memRead_congr {t : State} (hcfg : t.cfg = s.cfg) (hmem : t.mem = s.mem) (a k : Nat) :
    t.memRead a k = s.memRead a k := by
  unfold State.memRead State.inBounds
  rw [hcfg, hmem]

/-! ### The write ports -/

/-- Settles O11: the byte laws of `memWriteBytes`, inside its range, outside it and out of bounds. -/
theorem memWriteBytesStoresEachByte : Obligations.MemWriteBytesStoresEachByte := by
  intro s a bs hm
  refine ⟨fun hin => ⟨fun j hj => ?_, fun b hb => ?_⟩, fun hout b => ?_⟩
  · exact s.memWriteBytes_byteAt_inside hm hin hj
  · exact s.memWriteBytes_byteAt_outside bs hm hb
  · rw [s.memWriteBytes_outOfBounds hout]

/-- An out-of-bounds write of a number changes nothing (rule R50). -/
theorem State.memWrite_outOfBounds {a k : Nat} (v : Nat) (h : s.cfg.S < a + k) : s.memWrite a k v = s :=
  s.memWriteBytes_outOfBounds (by rwa [length_leBytes])

theorem State.memWrite_stored (a k v : Nat) (hm : s.mem.wf = true) : Stored a k v s (s.memWrite a k v) := by
  have hlen := length_leBytes k v
  refine ⟨fun hin => ⟨fun j hj => ?_, fun b hb => ?_⟩, fun hout b => ?_⟩
  · rw [State.memWrite, s.memWriteBytes_byteAt_inside hm (by rwa [hlen]) (by rwa [hlen]), getElem_leBytes,
      Nat.pow_mul]
  · exact s.memWriteBytes_byteAt_outside _ hm (by rwa [hlen])
  · rw [State.memWrite_outOfBounds v hout]

/-- Settles O10: a write of a number is a write of its bytes, lowest first. -/
theorem memWriteStoresLittleEndian : Obligations.MemWriteStoresLittleEndian := fun s a k v hm _ =>
  ⟨State.memWrite_stored a k v hm, fun j _ => s.memWriteBytes_reg a _ j, s.memWriteBytes_pc a _,
    s.memWriteBytes_events a _⟩

theorem State.memWrite_memRead {a k v : Nat} (hm : s.mem.wf = true) (hS : a + k ≤ s.cfg.S)
    (hv : v < 2 ^ (8 * k)) : (s.memWrite a k v).memRead a k = v := by
  have hlen : a + (leBytes k v).length ≤ s.cfg.S := by rwa [length_leBytes]
  have hread := Memory.readLE_writeBytes a (leBytes k v) hm
  rw [length_leBytes, leValue_leBytes] at hread
  rw [State.memWrite, State.memRead_inBounds _ (by rwa [s.memWriteBytes_cfg]), s.memWriteBytes_mem hlen, hread]
  exact Nat.mod_eq_of_lt (by rwa [Nat.pow_mul] at hv)

/-- Settles O12: the bytes written are the bytes read, and `v` has no more than these. -/
theorem writeThenReadGivesValue : Obligations.WriteThenReadGivesValue := fun _ _ _ _ hm hS hv =>
  State.memWrite_memRead hm hS hv

/-- Settles O13: each port checks the unwrapped sum before it touches memory. -/
theorem outOfBoundsIsSilent : Obligations.OutOfBoundsIsSilent := fun s _ _ v _ =>
  ⟨fun h => ⟨s.memRead_outOfBounds h, State.memWrite_outOfBounds v h⟩, fun h => s.memWriteBytes_outOfBounds h⟩

/-! ### The presenter's view -/

theorem State.viewWrite_framebuffer {x y c : Nat} (v : Byte) (hx : x < s.cfg.fbW) (hy : y < s.cfg.fbH)
    (hc : c < 4) :
    s.viewWrite s.framebuffer x y c v =
      s.memWriteBytes (s.cfg.fbBase + y * s.cfg.fbW * 4 + x * 4 + c) [v] := by
  rw [State.viewWrite, View.addr_of_lt hx hy hc]
  rfl

/-- Settles O50: a write through the view is a one-byte write to M, which rule R6 keeps in bounds. -/
theorem viewWriteAliasesMemory : Obligations.ViewWriteAliasesMemory := by
  intro s x y c v hv hm hx hy hc
  have hS := State.pixelByte_lt_S hv hx hy hc
  obtain ⟨hin, -⟩ := memWriteBytesStoresEachByte s _ [v] hm
  obtain ⟨hbyte, hother⟩ := hin hS
  rw [State.viewWrite_framebuffer v hx hy hc]
  exact ⟨hbyte 0 Nat.one_pos, hother, fun j _ => s.memWriteBytes_reg _ _ j⟩

/-! ### A STORE seen by the next fetch -/

theorem Profile.IB_pos (p : Profile) : 0 < p.IB := by cases p <;> decide

theorem Profile.WB_eq_IB (p : Profile) : p.WB = p.IB := by cases p <;> rfl

theorem Profile.W_eq_eight_mul_IB (p : Profile) : p.W = 8 * p.IB := by cases p <;> rfl

/-- A step that is not the forced halt leaves pc at its target: it does not wrap (rules R6 and R92). -/
theorem State.retire_pc (hv : s.cfg.Valid) {o : Option Nat} (h : s.target o < s.cfg.S) :
    (s.retire o).pc = s.target o := by
  obtain ⟨hge, -⟩ | ⟨-, hr⟩ := s.retire_cases o
  · exact absurd h (Nat.not_lt.mpr hge)
  · rw [hr, s.setPc_pc, Nat.mod_eq_of_lt (Config.Valid.lt_width hv h)]

theorem State.retire_fetchWord (s : State) (o : Option Nat) :
    (s.retire o).fetchWord = s.memRead (s.retire o).pc s.cfg.profile.IB := by
  rw [State.fetchWord, s.retire_cfg]
  exact State.memRead_congr (s.retire_cfg o) (s.retire_mem o) _ _

/-- A word stored over the next instruction is fetched next, in either profile (rules R56 and R176). -/
theorem State.storeReg_retire_pc_fetchWord (rs : Nat) (hv : s.cfg.Valid) (hm : s.mem.wf = true)
    (hS : s.pc + s.cfg.profile.IB + s.cfg.profile.IB ≤ s.cfg.S) :
    ((s.storeReg rs (s.pc + s.cfg.profile.IB)).retire none).pc = s.pc + s.cfg.profile.IB ∧
    ((s.storeReg rs (s.pc + s.cfg.profile.IB)).retire none).fetchWord = s.reg rs := by
  have hib := Profile.IB_pos s.cfg.profile
  have hreg := s.reg_lt rs
  rw [Profile.W_eq_eight_mul_IB] at hreg
  rw [State.storeReg, Profile.WB_eq_IB]
  generalize hu : s.memWrite (s.pc + s.cfg.profile.IB) s.cfg.profile.IB (s.reg rs) = u
  have hcfg : u.cfg = s.cfg := by rw [← hu]; exact s.memWriteBytes_cfg _ _
  have htarget : u.target none = s.pc + s.cfg.profile.IB := by rw [← hu]; simp [State.target, State.memWrite]
  have hpc : (u.retire none).pc = s.pc + s.cfg.profile.IB := by
    rw [State.retire_pc (by rwa [hcfg]) (by rw [htarget, hcfg]; omega), htarget]
  refine ⟨hpc, ?_⟩
  rw [u.retire_fetchWord, hpc, hcfg, ← hu, State.memWrite_memRead hm hS hreg]

/-- Settles O37: memory is the only place a fetch reads, so the word a STORE wrote there is fetched. -/
theorem storeIsSeenByNextFetch : Obligations.StoreIsSeenByNextFetch := by
  refine ⟨fun s rs ra hp hv hm ha hS => ?_, fun s rs addr hp hv hm ha hS => ?_⟩
  · have hib : s.cfg.profile.IB = 4 := by rw [hp]; rfl
    refine ⟨_, exec_storeP32 hp rs ra, ?_⟩
    rw [State.indirectAddr, ha, ← hib]
    exact State.storeReg_retire_pc_fetchWord rs hv hm (by omega)
  · have hib : s.cfg.profile.IB = 8 := by rw [hp]; rfl
    refine ⟨_, exec_storeP64 hp rs addr, ?_⟩
    rw [directAddr, ha, ← hib]
    exact State.storeReg_retire_pc_fetchWord rs hv hm (by omega)

/-! ### STORE and SETPIXEL on the same bytes -/

theorem State.drawPixel_of_lt {x y : Nat} (r g b a : Nat) (hx : x < s.cfg.fbW) (hy : y < s.cfg.fbH) :
    s.drawPixel x y r g b a = s.memWriteBytes (s.pixelAddr x y) (s.pixelBytes r g b a) :=
  if_pos (by simp [State.pixelInRange, hx, hy])

/-- A write of the number that some bytes make is a write of those bytes (rules R42, R43 and R46). -/
theorem State.memWrite_leValue (s : State) (a : Nat) (bs : List Byte) :
    s.memWrite a bs.length (leValue bs) = s.memWriteBytes a bs := by
  rw [State.memWrite, leBytes_leValue]

/-- Two in-bounds writes, the second right after the first, leave the memory of the one write of all the bytes. -/
theorem State.memWriteBytes_append_mem {t : State} {a : Nat} {bs cs : List Byte}
    (hS : a + (bs ++ cs).length ≤ s.cfg.S) (hcfg : t.cfg = s.cfg) (hmem : t.mem = (s.memWriteBytes a bs).mem) :
    (t.memWriteBytes (a + bs.length) cs).mem = (s.memWriteBytes a (bs ++ cs)).mem := by
  rw [s.memWriteBytes_mem hS, Memory.writeBytes_append]
  rw [List.length_append] at hS
  rw [s.memWriteBytes_mem (by omega)] at hmem
  rw [t.memWriteBytes_mem (by rw [hcfg]; omega), hmem]

theorem leValue_append (bs cs : List Byte) : leValue (bs ++ cs) = leValue bs + 256 ^ bs.length * leValue cs := by
  induction bs with
  | nil => simp [leValue]
  | cons b bs ih =>
    rw [List.cons_append, leValue, ih, leValue, List.length_cons, Nat.pow_succ']
    ring

@[simp] theorem State.length_pixelBytes (s : State) (r g b a : Nat) : (s.pixelBytes r g b a).length = 4 := rfl

/-- The word an encodable P32 pixel's bytes make, with the channels scaled by 17 (rule R121). -/
theorem State.leValue_pixelBytes_p32 {x y r g b a : Nat} (hp : s.cfg.profile = .p32)
    (hwf : (Instr.setpixelP32 x y r g b a).wf = true) :
    leValue (s.pixelBytes r g b a) = 17 * r + 2 ^ 8 * (17 * g) + 2 ^ 16 * (17 * b) + 2 ^ 24 * (17 * a) := by
  simp only [Instr.wf, fitsField, Bool.and_eq_true, decide_eq_true_eq] at hwf
  simp only [State.pixelBytes, hp, Profile.CW, scale, leValue, BitVec.toNat_ofNat]
  omega

/-- The half-word an encodable P64 pixel's bytes make: a channel is its own byte (rule R121). -/
theorem State.leValue_pixelBytes_p64 {x y r g b a : Nat} (hp : s.cfg.profile = .p64)
    (hwf : (Instr.setpixelP64 x y r g b a).wf = true) :
    leValue (s.pixelBytes r g b a) = r + 2 ^ 8 * g + 2 ^ 16 * b + 2 ^ 24 * a := by
  simp only [Instr.wf, fitsField, Bool.and_eq_true, decide_eq_true_eq] at hwf
  simp only [State.pixelBytes, hp, Profile.CW, scale, leValue, BitVec.toNat_ofNat]
  omega

/-- A STORE of the word that one pixel's bytes make is the drawing of that pixel (rules R45 and R46). -/
theorem State.storeReg_eq_drawPixel {rs x y r g b a : Nat} (hp : s.cfg.profile = .p32)
    (hx : x < s.cfg.fbW) (hy : y < s.cfg.fbH) (hrs : s.reg rs = leValue (s.pixelBytes r g b a)) :
    s.storeReg rs (s.pixelAddr x y) = s.drawPixel x y r g b a := by
  have hwb : s.cfg.profile.WB = (s.pixelBytes r g b a).length := by rw [hp]; rfl
  rw [State.storeReg, hrs, hwb, s.memWrite_leValue, State.drawPixel_of_lt r g b a hx hy]

/-- A STORE of the word that two neighbouring pixels' bytes make leaves the memory of their two drawings, the second
in any state `t` with the memory that the first left (rules R45 and R46). -/
theorem State.storeReg_mem_eq_drawPixel_drawPixel {t : State} {rs x y r g b a r' g' b' a' : Nat}
    (hp : s.cfg.profile = .p64) (hv : s.cfg.Valid) (hx : x + 1 < s.cfg.fbW) (hy : y < s.cfg.fbH)
    (hrs : s.reg rs = leValue (s.pixelBytes r g b a ++ s.pixelBytes r' g' b' a'))
    (hcfg : t.cfg = s.cfg) (hmem : t.mem = (s.drawPixel x y r g b a).mem) :
    (s.storeReg rs (s.pixelAddr x y)).mem = (t.drawPixel (x + 1) y r' g' b' a').mem := by
  have hwb : s.cfg.profile.WB = (s.pixelBytes r g b a ++ s.pixelBytes r' g' b' a').length := by rw [hp]; rfl
  have hbytes : t.pixelBytes r' g' b' a' = s.pixelBytes r' g' b' a' := by simp only [State.pixelBytes, hcfg]
  have haddr : t.pixelAddr (x + 1) y = s.pixelAddr x y + (s.pixelBytes r g b a).length := by
    simp only [State.pixelAddr, State.length_pixelBytes, hcfg]
    omega
  have hS : s.pixelAddr x y + (s.pixelBytes r g b a ++ s.pixelBytes r' g' b' a').length ≤ s.cfg.S := by
    have hlast := State.pixelByte_lt_S (c := 3) hv hx hy (by decide)
    simp only [State.pixelAddr, List.length_append, State.length_pixelBytes]
    omega
  rw [State.drawPixel_of_lt r g b a (by omega) hy] at hmem
  rw [State.drawPixel_of_lt r' g' b' a' (by rwa [hcfg]) (by rwa [hcfg]), hbytes, haddr,
    State.memWriteBytes_append_mem hS hcfg hmem, State.storeReg, hrs, hwb, s.memWrite_leValue]

/-- Settles O15: the word's little-endian bytes are the pixels' channel bytes, at the same addresses. -/
theorem storeAndSetPixelAgree : Obligations.StoreAndSetPixelAgree := by
  refine ⟨fun s rs ra x y r g b a hp _ _ hwf hx hy haddr hrs => ?_,
    fun s rs addr x y r g b a r' g' b' a' hp hv _ hwf hwf' hx hy haddr hrs => ?_⟩
  · have hword := hrs.trans (State.leValue_pixelBytes_p32 hp hwf).symm
    refine ⟨_, exec_storeP32 hp rs ra, ?_⟩
    rw [exec_setpixelP32 hp, ← State.storeReg_eq_drawPixel hp hx hy hword, State.indirectAddr, haddr,
      State.pixelAddr]
  · have hword : s.reg rs = leValue (s.pixelBytes r g b a ++ s.pixelBytes r' g' b' a') := by
      rw [leValue_append, State.leValue_pixelBytes_p64 hp hwf, State.leValue_pixelBytes_p64 hp hwf', hrs,
        State.length_pixelBytes]
      omega
    have hu := exec_setpixelP64 hp x y r g b a
    have hcfg := exec_cfg hu
    refine ⟨_, _, _, exec_storeP64 hp rs addr, hu, exec_setpixelP64 (by rwa [hcfg]) (x + 1) y r' g' b' a', ?_⟩
    rw [State.retire_mem, State.retire_mem, directAddr, haddr]
    exact State.storeReg_mem_eq_drawPixel_drawPixel hp hv hx hy hword hcfg (State.retire_mem _ _)

end Sys2Proof.Machine
end

section
/-!
PROOFS. The encoding (spec/30_encoding.md): the decoder undoes the encoder whatever the ignored bits are, the decoder
is total, the encoder is the spec's shift formulas, and the pseudo-instructions.
-/

namespace Sys2Proof

open Sys2Proof.Machine

/-! ### Fields -/

theorem fitsField_iff {n v : Nat} : fitsField n v = true ↔ v < 2 ^ n := decide_eq_true_iff

theorem inOpcodeRow_iff {lo hi op : Nat} : inOpcodeRow lo hi op = true ↔ lo ≤ op ∧ op ≤ hi := by
  rw [inOpcodeRow, Bool.and_eq_true, decide_eq_true_iff, decide_eq_true_iff]

theorem fitsField_bits {w hi lo n : Nat} (h : hi + 1 - lo = n) : fitsField n (bits w hi lo) = true :=
  fitsField_iff.mpr (h ▸ bits_lt w hi lo)

/-- The signed reading of a field is the two's-complement one: its top bit is set from `2^n` on (rule R10). -/
theorem sext_succ_eq {n f : Nat} (h : f < 2 ^ (n + 1)) :
    sext (n + 1) f = if f < 2 ^ n then (f : Int) else (f : Int) - 2 ^ (n + 1) := by
  have hquot : f / 2 ^ n < 2 := (Nat.div_lt_iff_lt_mul (by positivity)).mpr (by omega)
  have hlow : f / 2 ^ n = 0 ↔ f < 2 ^ n := by simp
  have htop : bits f n n = 1 ↔ ¬ f < 2 ^ n := by
    rw [← hlow, bits, Nat.add_sub_cancel_left]
    generalize f / 2 ^ n = q at hquot
    omega
  simp only [sext, Nat.add_sub_cancel, htop, ite_not]

theorem fitsSigned_sext {n f : Nat} (h : f < 2 ^ (n + 1)) : fitsSigned (n + 1) (sext (n + 1) f) = true := by
  have hf : (f : Int) < 2 ^ n * 2 := by rw [← Int.pow_succ]; exact_mod_cast h
  rw [sext_succ_eq h]
  simp only [fitsSigned, Nat.add_sub_cancel, Bool.and_eq_true, decide_eq_true_eq, Int.pow_succ]
  have hcast : f < 2 ^ n ↔ (f : Int) < 2 ^ n := by norm_cast
  split <;> omega

/-! ### The decoder -/

theorem decode32_of_unknown {w : Nat} (h : 8 ≤ bits w 31 28) : decode32 w = .unknownP32 (bits w 31 28) := by
  unfold decode32
  split
  case h_9 => rfl
  all_goals omega

theorem decode64_of_unknown {w : Nat} (h : 8 ≤ bits w 63 56) : decode64 w = decodeUnknown64 (bits w 63 56) := by
  unfold decode64
  split
  case h_9 => rfl
  all_goals omega

/-- Every unknown opcode of P64 is in the row of its own range (rule R93). -/
theorem decodeUnknown64_opcode {i : Instr} (hwf : i.wf = true) (hp : i.profile = .p64) (hop : 8 ≤ i.opcode) :
    decodeUnknown64 i.opcode = i := by
  cases i with
  | unknown8P64 op | unknown16P64 op | unknown32P64 op | unknown64P64 op | unknown128P64 op =>
    have hrow := inOpcodeRow_iff.mp hwf
    simp only [Instr.opcode, decodeUnknown64]
    grind
  | _ => simp [Instr.profile, Instr.opcode] at hp hop

/-- How many low bits of an instruction's word are no part of any field (rules R63, R64 and R67). -/
def Instr.ignoredBits : Instr → Nat
  | .nopP32 | .unknownP32 _ => 28
  | .movP32 _ _ | .loadP32 _ _ | .storeP32 _ _ => 20
  | .addP32 _ _ _ => 16
  | .setpixelP32 _ _ _ _ _ _ | .jmpP32 _ | .beqP32 _ _ _ => 0
  | .nopP64 => 56
  | .unknown8P64 _ | .unknown16P64 _ | .unknown32P64 _ | .unknown64P64 _ | .unknown128P64 _ => 56
  | .movP64 _ _ => 40
  | .addP64 _ _ _ => 32
  | .loadP64 _ _ | .storeP64 _ _ | .setpixelP64 _ _ _ _ _ _ | .jmpP64 _ | .beqP64 _ _ _ => 0

/-- The fields and the ignored bits together stay below the opcode field (rule R62). -/
theorem bits_opcode_encode_add {i : Instr} {d : Nat} (hwf : i.wf = true) (hd : d < 2 ^ i.ignoredBits) :
    bits (encode i + d) (i.profile.IW - 1) (i.profile.IW - i.profile.OPW) = i.opcode := by
  cases i with
  | beqP32 ra rb off | beqP64 ra rb off =>
    have hoff20 := signedField_lt 20 off
    have hoff40 := signedField_lt 40 off
    simp only [Instr.wf, fitsField_iff, Instr.ignoredBits, Bool.and_eq_true] at hwf hd
    simp only [bits, encode, Instr.profile, Profile.IW, Profile.OPW, Instr.opcode]
    omega
  | _ =>
    simp only [Instr.wf, fitsField_iff, inOpcodeRow_iff, Instr.ignoredBits, Bool.and_eq_true] at hwf hd
    simp only [bits, encode, Instr.profile, Profile.IW, Profile.OPW, Instr.opcode]
    omega

/-- The decoder undoes the encoder, whatever stands in the ignored bits (rules R67 and R69). -/
theorem decodeWord_encode_add {i : Instr} {d : Nat} (hwf : i.wf = true) (hd : d < 2 ^ i.ignoredBits) :
    decodeWord i.profile (encode i + d) = i := by
  have hop := bits_opcode_encode_add hwf hd
  cases i with
  | unknownP32 op =>
    have hge : 8 ≤ op := (inOpcodeRow_iff.mp hwf).1
    calc decode32 (encode _ + d) = .unknownP32 _ := decode32_of_unknown (hge.trans_eq hop.symm)
      _ = .unknownP32 op := congrArg _ hop
  | beqP32 ra rb off =>
    simp only [Instr.wf, fitsField_iff, Instr.ignoredBits, Bool.and_eq_true] at hwf hd
    have hoff := signedField_lt 20 off
    have hfield : bits (encode (.beqP32 ra rb off) + d) 19 0 = signedField 20 off := by
      simp only [bits, encode]; omega
    simp only [Instr.profile, Profile.IW, Profile.OPW, Nat.reduceSub, Instr.opcode] at hop
    simp only [Instr.profile, decodeWord, decode32, hop, hfield, sext_signedField20 hwf.2]
    congr 1
    all_goals simp only [bits, encode]; omega
  | beqP64 ra rb off =>
    simp only [Instr.wf, fitsField_iff, Instr.ignoredBits, Bool.and_eq_true] at hwf hd
    have hoff := signedField_lt 40 off
    have hfield : bits (encode (.beqP64 ra rb off) + d) 39 0 = signedField 40 off := by
      simp only [bits, encode]; omega
    simp only [Instr.profile, Profile.IW, Profile.OPW, Nat.reduceSub, Instr.opcode] at hop
    simp only [Instr.profile, decodeWord, decode64, hop, hfield, sext_signedField40 hwf.2]
    congr 1
    all_goals simp only [bits, encode]; omega
  | unknown8P64 op | unknown16P64 op | unknown32P64 op | unknown64P64 op | unknown128P64 op =>
    have hge : 8 ≤ op := by
      have hrow := inOpcodeRow_iff.mp hwf
      omega
    calc decode64 (encode _ + d) = decodeUnknown64 _ := decode64_of_unknown (hge.trans_eq hop.symm)
      _ = decodeUnknown64 op := congrArg _ hop
      _ = _ := decodeUnknown64_opcode hwf rfl hge
  | nopP32 | nopP64 =>
    simp only [Instr.profile, Profile.IW, Profile.OPW, Nat.reduceSub, Instr.opcode] at hop
    simp only [Instr.profile, decodeWord, decode32, decode64, hop]
  | _ =>
    simp only [Instr.wf, fitsField_iff, Instr.ignoredBits, Bool.and_eq_true] at hwf hd
    simp only [Instr.profile, Profile.IW, Profile.OPW, Nat.reduceSub, Instr.opcode] at hop
    simp only [Instr.profile, decodeWord, decode32, decode64, hop]
    congr 1
    all_goals simp only [bits, encode]; omega

theorem decodeWord_encode {i : Instr} (hwf : i.wf = true) : decodeWord i.profile (encode i) = i :=
  decodeWord_encode_add hwf (Nat.two_pow_pos _)

theorem encode_lt {i : Instr} (hwf : i.wf = true) : encode i < 2 ^ i.profile.IW := by
  cases i with
  | nopP32 => exact Laws.EncodeFits.nopP32 hwf
  | movP32 rd rs => exact Laws.EncodeFits.movP32 rd rs hwf
  | addP32 rd rs1 rs2 => exact Laws.EncodeFits.addP32 rd rs1 rs2 hwf
  | loadP32 rd ra => exact Laws.EncodeFits.loadP32 rd ra hwf
  | storeP32 rs ra => exact Laws.EncodeFits.storeP32 rs ra hwf
  | setpixelP32 x y r g b a => exact Laws.EncodeFits.setpixelP32 x y r g b a hwf
  | jmpP32 addr => exact Laws.EncodeFits.jmpP32 addr hwf
  | beqP32 ra rb off => exact Laws.EncodeFits.beqP32 ra rb off hwf
  | unknownP32 op => exact Laws.EncodeFits.unknownP32 op hwf
  | nopP64 => exact Laws.EncodeFits.nopP64 hwf
  | movP64 rd rs => exact Laws.EncodeFits.movP64 rd rs hwf
  | addP64 rd rs1 rs2 => exact Laws.EncodeFits.addP64 rd rs1 rs2 hwf
  | loadP64 rd addr => exact Laws.EncodeFits.loadP64 rd addr hwf
  | storeP64 rs addr => exact Laws.EncodeFits.storeP64 rs addr hwf
  | setpixelP64 x y r g b a => exact Laws.EncodeFits.setpixelP64 x y r g b a hwf
  | jmpP64 addr => exact Laws.EncodeFits.jmpP64 addr hwf
  | beqP64 ra rb off => exact Laws.EncodeFits.beqP64 ra rb off hwf
  | unknown8P64 op => exact Laws.EncodeFits.unknown8P64 op hwf
  | unknown16P64 op => exact Laws.EncodeFits.unknown16P64 op hwf
  | unknown32P64 op => exact Laws.EncodeFits.unknown32P64 op hwf
  | unknown64P64 op => exact Laws.EncodeFits.unknown64P64 op hwf
  | unknown128P64 op => exact Laws.EncodeFits.unknown128P64 op hwf

/-! ### Decode of encode -/

@[simp] theorem length_encodeBytes (i : Instr) : (encodeBytes i).length = i.profile.IB := length_leBytes _ _

theorem leValue_encodeBytes {i : Instr} (hwf : i.wf = true) : leValue (encodeBytes i) = encode i := by
  have hlt := encode_lt hwf
  have hIW : 2 ^ i.profile.IW = 256 ^ i.profile.IB := by cases i.profile <;> rfl
  rw [encodeBytes, leValue_leBytes, Nat.mod_eq_of_lt (hIW ▸ hlt)]

/-- Settles O2: the first IB bytes make the encoded word, and the decoder gives back its instruction. -/
theorem encodedBytesDecodeBack : Obligations.EncodedBytesDecodeBack := by
  intro i rest hwf
  have hlen := length_encodeBytes i
  have hlong : ¬ (encodeBytes i ++ rest).length < i.profile.IB := by rw [List.length_append]; omega
  rw [decodeBytes, if_neg hlong, List.take_left' hlen, List.drop_left' hlen, leValue_encodeBytes hwf,
    decodeWord_encode hwf]

/-! ### The decoder is total -/

theorem decodeUnknown64_wf {op : Nat} (hlo : 8 ≤ op) (hhi : op < 256) :
    (decodeUnknown64 op).wf = true ∧ (decodeUnknown64 op).profile = .p64 ∧ (decodeUnknown64 op).opcode = op := by
  unfold decodeUnknown64
  split_ifs <;> exact ⟨inOpcodeRow_iff.mpr (by omega), rfl, rfl⟩

theorem decode32_wf (w : Nat) :
    (decode32 w).wf = true ∧ (decode32 w).profile = .p32 ∧ (decode32 w).opcode = bits w 31 28 := by
  by_cases hop : 8 ≤ bits w 31 28
  · rw [decode32_of_unknown hop]
    exact ⟨inOpcodeRow_iff.mpr ⟨hop, Nat.le_of_lt_succ (bits_lt w 31 28)⟩, rfl, rfl⟩
  · unfold decode32
    split
    case h_9 => grind
    all_goals
      refine ⟨?_, rfl, by simp only [*, Instr.opcode]⟩
      simp [Instr.wf, fitsField_bits, fitsSigned_sext (n := 19) (bits_lt w 19 0)]

theorem decode64_wf (w : Nat) :
    (decode64 w).wf = true ∧ (decode64 w).profile = .p64 ∧ (decode64 w).opcode = bits w 63 56 := by
  by_cases hop : 8 ≤ bits w 63 56
  · rw [decode64_of_unknown hop]
    exact decodeUnknown64_wf hop (bits_lt w 63 56)
  · unfold decode64
    split
    case h_9 => grind
    all_goals
      refine ⟨?_, rfl, by simp only [*, Instr.opcode]⟩
      simp [Instr.wf, fitsField_bits, fitsSigned_sext (n := 39) (bits_lt w 39 0)]

/-- Settles O5: what a slice reads fits its field, and the dispatch on the top slice answers its own opcode. -/
theorem decodeIsTotalAndWellFormed : Obligations.DecodeIsTotalAndWellFormed
  | .p32, w => decode32_wf w
  | .p64, w => decode64_wf w

/-! ### The fields alone -/

theorem decodeWord_beqP32 {ra rb f : Nat} (hra : ra < 16) (hrb : rb < 16) (hf : f < 2 ^ 20) :
    decodeWord .p32 (2 ^ 28 * 7 + 2 ^ 24 * ra + 2 ^ 20 * rb + f) = .beqP32 ra rb (sext 20 f) := by
  have hwf : (Instr.beqP32 ra rb (sext 20 f)).wf = true := by
    simp [Instr.wf, fitsField, hra, hrb, fitsSigned_sext hf]
  have h := decodeWord_encode hwf
  rwa [encode, signedField_sext hf] at h

theorem decodeWord_beqP64 {ra rb f : Nat} (hra : ra < 256) (hrb : rb < 256) (hf : f < 2 ^ 40) :
    decodeWord .p64 (2 ^ 56 * 7 + 2 ^ 48 * ra + 2 ^ 40 * rb + f) = .beqP64 ra rb (sext 40 f) := by
  have hwf : (Instr.beqP64 ra rb (sext 40 f)).wf = true := by
    simp [Instr.wf, fitsField, hra, hrb, fitsSigned_sext hf]
  have h := decodeWord_encode hwf
  rwa [encode, signedField_sext hf] at h

/-- Settles O4: each word is the encoding of a well-formed instruction with its ignored bits added. -/
theorem decodeReadsFieldsAlone : Obligations.DecodeReadsFieldsAlone := by
  refine ⟨fun d hd => ?nop32,
    fun rd rs d _ _ hd => decodeWord_encode_add (i := .movP32 rd rs) ?_ hd,
    fun rd rs1 rs2 d _ _ _ hd => decodeWord_encode_add (i := .addP32 rd rs1 rs2) ?_ hd,
    fun rd ra d _ _ hd => decodeWord_encode_add (i := .loadP32 rd ra) ?_ hd,
    fun rs ra d _ _ hd => decodeWord_encode_add (i := .storeP32 rs ra) ?_ hd,
    fun x y r g b a _ _ _ _ _ _ => decodeWord_encode (i := .setpixelP32 x y r g b a) ?_,
    fun addr _ => decodeWord_encode (i := .jmpP32 addr) ?_,
    fun ra rb f hra hrb hf => sext_succ_eq hf ▸ decodeWord_beqP32 hra hrb hf,
    fun k d _ _ hd => decodeWord_encode_add (i := .unknownP32 k) ?_ hd,
    fun d hd => ?nop64,
    fun rd rs d _ _ hd => decodeWord_encode_add (i := .movP64 rd rs) ?_ hd,
    fun rd rs1 rs2 d _ _ _ hd => decodeWord_encode_add (i := .addP64 rd rs1 rs2) ?_ hd,
    fun rd addr _ _ => decodeWord_encode (i := .loadP64 rd addr) ?_,
    fun rs addr _ _ => decodeWord_encode (i := .storeP64 rs addr) ?_,
    fun x y r g b a _ _ _ _ _ _ => decodeWord_encode (i := .setpixelP64 x y r g b a) ?_,
    fun addr _ => decodeWord_encode (i := .jmpP64 addr) ?_,
    fun ra rb f hra hrb hf => sext_succ_eq hf ▸ decodeWord_beqP64 hra hrb hf,
    fun k d _ _ hd => ⟨fun _ => decodeWord_encode_add (i := .unknown8P64 k) ?_ hd,
      fun _ _ => decodeWord_encode_add (i := .unknown16P64 k) ?_ hd,
      fun _ _ => decodeWord_encode_add (i := .unknown32P64 k) ?_ hd,
      fun _ _ => decodeWord_encode_add (i := .unknown64P64 k) ?_ hd,
      fun _ => decodeWord_encode_add (i := .unknown128P64 k) ?_ hd⟩⟩
  case nop32 => exact Nat.zero_add d ▸ decodeWord_encode_add (i := .nopP32) rfl hd
  case nop64 => exact Nat.zero_add d ▸ decodeWord_encode_add (i := .nopP64) rfl hd
  all_goals
    simp only [Instr.wf, fitsField_iff, inOpcodeRow_iff, Bool.and_eq_true]
    omega

/-! ### The shift formulas -/

/-- Fields that do not overlap are put together by an `or` as by a sum (rule R81). -/
theorem shiftLeft_or_eq_add {a b n : Nat} (h : b < 2 ^ n) : a <<< n ||| b = 2 ^ n * a + b := by
  rw [← Nat.shiftLeft_add_eq_or_of_lt h, Nat.shiftLeft_eq, Nat.mul_comm]

theorem asmInstr_of_not_wf {p : Profile} {i : Instr} (h : i.wf = false) : asmInstr p i = none :=
  if_neg (by simp [h])

/-- Settles O3: read from the lowest field up, each `or` adds a field above all the bits so far. -/
theorem encodingFollowsShiftFormulas : Obligations.EncodingFollowsShiftFormulas := by
  refine ⟨⟨rfl, rfl⟩, ?_, ?_, ?_, ?_, ?_, ?_, ?_, ?_, ?_, ?_, ?_, ?_, ?_, ?_, fun p i => asmInstr_of_not_wf,
    by decide +kernel⟩
  all_goals
    intros
    -- The opcode's shift is left unevaluated, or the lemma would not see it.
    simp only [encode, signedField, Nat.or_assoc, -Nat.reduceShiftLeft]
    simp (disch := omega) only [shiftLeft_or_eq_add, -Nat.reduceShiftLeft]
  all_goals omega

/-! ### Fixed words -/

/-- Settles O1: the decoder run on the fourteen words. -/
theorem specWordsDecode : Obligations.SpecWordsDecode := by
  unfold Obligations.SpecWordsDecode
  decide +kernel

end Sys2Proof

namespace Sys2Proof.Machine

open Sys2Proof.Claims

variable {s : State}

/-! ### Pseudo-instructions -/

theorem dataWord_of_lt {p : Profile} {v : Nat} (h : v < 2 ^ (p.IW - p.OPW)) : dataWord p v = some v := if_pos h

theorem State.retire_of_le {o : Option Nat} (h : s.cfg.S ≤ s.target o) : s.retire o = s.stopWith .memoryExhausted :=
  if_pos h

/-- The model's reading of the offset is the one the statements use (notes/assumptions/22.md). -/
theorem State.branchOffset_eq_displacement (s : State) (off : Int) : s.branchOffset off = displacement s.cfg off := by
  cases h : s.cfg.offsetReading with
  | signed => simp only [State.branchOffset, displacement, h]
  | unsigned =>
    have hpow : (2 : Int) ^ s.cfg.profile.BOW ≠ 0 := by positivity
    simp only [State.branchOffset, displacement, h, signedField, Int.toNat_of_nonneg (Int.emod_nonneg off hpow)]

/-- HALT jumps to the highest address its field admits; a block with no byte there halts (rules R82, R130, R150). -/
theorem exec_haltInstr (h : s.cfg.S < 2 ^ s.cfg.profile.JFW) :
    exec (haltInstr s.cfg.profile) s = .next (s.stopWith .memoryExhausted) := by
  cases hp : s.cfg.profile with
  | p32 =>
    rw [hp] at h
    rw [haltInstr, exec_jmpP32 hp, State.retire_of_le]
    exact Nat.le_sub_one_of_lt h
  | p64 =>
    rw [hp] at h
    rw [haltInstr, exec_jmpP64 hp, State.retire_of_le]
    exact Nat.le_sub_one_of_lt h

/-- BRA compares r0 with itself (rule R82). -/
theorem exec_braInstr (s : State) (off : Int) :
    exec (braInstr s.cfg.profile off) s = .next (s.retire (some (s.branchTarget off))) := by
  have hbranch : s.branchIfEqual 0 0 off = some (s.branchTarget off) := if_pos (decide_eq_true rfl)
  cases hp : s.cfg.profile with
  | p32 => rw [braInstr, exec_beqP32 hp, hbranch]
  | p64 => rw [braInstr, exec_beqP64 hp, hbranch]

theorem State.retire_branchTarget_pc (hv : s.cfg.Valid) (off : Int) :
    ((s.retire (some (s.branchTarget off))).pc : Int) = ((s.pc : Int) + displacement s.cfg off) % (s.cfg.S : Int) := by
  have hS : 0 < s.cfg.S := Nat.zero_lt_of_lt hv.1
  rw [State.retire_pc hv (o := some (s.branchTarget off)) (s.branchTarget_lt off hS),
    ← s.branchOffset_eq_displacement]
  exact s.branchTarget_cast off hS

/-- Settles O6: DATA fits below the opcode field, HALT's target is beyond S, and BRA's two registers are one. -/
theorem pseudoInstructionsBehave : Obligations.PseudoInstructionsBehave := by
  refine ⟨fun p v hv => ⟨dataWord_of_lt hv, ?_, fun s _ hm a hS => State.memWrite_memRead hm hS ?_⟩,
    ⟨rfl, rfl⟩, fun p s hcfg => ?_, fun s off hv => ?_⟩
  · obtain ⟨-, -, hop⟩ := decodeIsTotalAndWellFormed p v
    rw [hop, Nat.div_eq_of_lt hv, Nat.zero_mod]
  · exact hv.trans_le (Nat.pow_le_pow_right two_pos (by cases p <;> decide))
  · have hp : s.cfg.profile = p := by rw [hcfg]; rfl
    have hS : s.cfg.S < 2 ^ s.cfg.profile.JFW := by rw [hcfg]; cases p <;> decide
    exact ⟨_, hp ▸ exec_haltInstr hS, s.stopWith_runState _, s.stopWith_pc _⟩
  · exact ⟨_, exec_braInstr s off, State.retire_branchTarget_pc hv off⟩

end Sys2Proof.Machine
end

section
/-!
PROOFS. The execution cycle (spec/40_execution_cycle.md): the gate, the fetch and the decode of a step, and for every
instruction its effect, its one destination and its pc update.
-/

namespace Sys2Proof.Machine

open Sys2Proof.Claims

variable {s u : State}

/-! ### The gate and the fetch -/

theorem step_of_not_running (h : s.runState ≠ .running) : step s = .next s := by
  unfold step
  split
  · exact absurd ‹_› h
  all_goals rfl

theorem step_of_running (h : s.runState = .running) : step s = exec s.fetchInstr s := by
  unfold step
  rw [h]

/-- Settles O34: the three run-states other than Running have one arm each, which answers the state itself. -/
theorem stepIsGated : Obligations.StepIsGated := fun _ => step_of_not_running

/-- Settles O32: the fetched instruction is by definition the decoding of the word at pc. -/
theorem stepRunsFetchedInstruction : Obligations.StepRunsFetchedInstruction := fun _ => step_of_running

/-- Reading a run of bytes gives the number they make (rules R41 and R46). -/
theorem Memory.readLE_eq_leValue {m : Memory} {a : Nat} {bs : List Byte}
    (h : ∀ (j : Nat) (hj : j < bs.length), m.get (a + j) = bs[j]) : m.readLE a bs.length = leValue bs := by
  induction bs generalizing a with
  | nil => rfl
  | cons b bs ih =>
    have hhead : m.get a = b := h 0 (Nat.succ_pos _)
    have htail : m.readLE (a + 1) bs.length = leValue bs := ih fun j hj => by
      rw [Nat.add_assoc, Nat.add_comm 1 j]
      exact h (j + 1) (Nat.succ_lt_succ hj)
    rw [List.length_cons, Memory.readLE, leValue, hhead, htail]

theorem State.fetchWord_eq_encode {i : Instr} (hwf : i.wf = true) (hp : i.profile = s.cfg.profile)
    (hS : s.pc + s.cfg.profile.IB ≤ s.cfg.S)
    (h : ∀ (j : Nat) (hj : j < (encodeBytes i).length), s.byteAt (s.pc + j) = (encodeBytes i)[j]) :
    s.fetchWord = encode i := by
  have hlen : s.cfg.profile.IB = (encodeBytes i).length := by rw [length_encodeBytes, hp]
  rw [State.fetchWord, s.memRead_inBounds hS, hlen, Memory.readLE_eq_leValue h, leValue_encodeBytes hwf]

/-- Settles O33: the bytes at pc make the encoded word, which the decoder turns back. -/
theorem stepRunsEncodedInstruction : Obligations.StepRunsEncodedInstruction := by
  intro s i hr hwf hp hS hbytes
  rw [step_of_running hr, State.fetchInstr, State.fetchWord_eq_encode hwf hp hS hbytes, ← hp, decodeWord_encode hwf]

/-! ### A fetch out of bounds -/

theorem decodeWord_zero (p : Profile) : decodeWord p 0 = nopOf p := by cases p <;> rfl

theorem exec_nopOf (s : State) : exec (nopOf s.cfg.profile) s = .next (s.retire none) := by
  cases hp : s.cfg.profile with
  | p32 => exact exec_nopP32 hp
  | p64 => exact exec_nopP64 hp

theorem State.fetchInstr_outOfBounds (h : s.cfg.S < s.pc + s.cfg.profile.IB) :
    s.fetchInstr = nopOf s.cfg.profile := by
  rw [State.fetchInstr, State.fetchWord, s.memRead_outOfBounds h, decodeWord_zero]

/-- The word 0 is a NOP, whose own advance then reaches beyond S (rules R94 and R150). -/
theorem step_fetch_outOfBounds (hr : s.runState = .running) (h : s.cfg.S < s.pc + s.cfg.profile.IB) :
    step s = .next (s.stopWith .memoryExhausted) := by
  rw [step_of_running hr, State.fetchInstr_outOfBounds h, exec_nopOf, State.retire_of_le]
  exact h.le

/-- Settles O36: the step is that of a NOP at a pc whose successor is beyond S. -/
theorem fetchOutOfBoundsHalts : Obligations.FetchOutOfBoundsHalts := by
  intro s hr _ _ h
  refine ⟨s.memRead_outOfBounds h, ?_, _, step_fetch_outOfBounds hr h, s.stopWith_runState _, s.stopWith_pc _,
    fun j _ => s.stopWith_reg _ j, fun b => ?_, s.stopWith_events _⟩
  · rw [State.fetchInstr_outOfBounds h]
    cases s.cfg.profile <;> rfl
  · rw [State.byteAt, s.stopWith_mem, State.byteAt]

/-! ### A word placed at pc -/

theorem placementProfile_IW (p : Profile) : placementProfile p.IW = p := by cases p <;> rfl

theorem State.asProfile_self (s : State) : s.asProfile s.cfg.profile = s := if_pos rfl

/-- Making a block ready to step sets control state, and pc to 0 where the fetch would be out of bounds. -/
theorem State.readyToFetch_cases (s : State) :
    (s.pc + s.cfg.profile.IB ≤ s.cfg.S ∧ s.readyToFetch = (s.setRunState .running).setLoaded) ∨
      s.readyToFetch = (s.setRunState .running).setLoaded.setPc 0 := by
  by_cases h : s.pc + s.cfg.profile.IB ≤ s.cfg.S
  · exact .inl ⟨h, if_pos (decide_eq_true h)⟩
  · exact .inr (if_neg (mt of_decide_eq_true h))

theorem State.readyToFetch_keeps (s : State) :
    s.readyToFetch.cfg = s.cfg ∧ s.readyToFetch.mem = s.mem ∧ s.readyToFetch.runState = .running := by
  obtain ⟨-, h⟩ | h := s.readyToFetch_cases <;> rw [h] <;> exact ⟨rfl, rfl, rfl⟩

/-- Pc 0 is in bounds of any block: rule R6 has `IB < S`. -/
theorem State.readyToFetch_inBounds (hv : s.cfg.Valid) :
    s.readyToFetch.pc + s.cfg.profile.IB ≤ s.cfg.S := by
  obtain ⟨h, hr⟩ | hr := s.readyToFetch_cases <;> rw [hr]
  · exact h
  · rw [State.setPc_pc, Nat.zero_mod, Nat.zero_add]
    exact hv.1.le

/-- A word stored at the pc of a Running block is the word it runs next (rules R56 and R91). -/
theorem step_memWrite_pc {v : Nat} (hr : s.runState = .running) (hm : s.mem.wf = true)
    (hS : s.pc + s.cfg.profile.IB ≤ s.cfg.S) (hv : v < 2 ^ (8 * s.cfg.profile.IB)) :
    step (s.memWrite s.pc s.cfg.profile.IB v) =
      exec (decodeWord s.cfg.profile v) (s.memWrite s.pc s.cfg.profile.IB v) := by
  have hpc : (s.memWrite s.pc s.cfg.profile.IB v).pc = s.pc := s.memWriteBytes_pc _ _
  have hcfg : (s.memWrite s.pc s.cfg.profile.IB v).cfg = s.cfg := s.memWriteBytes_cfg _ _
  have hrun : (s.memWrite s.pc s.cfg.profile.IB v).runState = .running := (s.memWriteBytes_runState _ _).trans hr
  rw [step_of_running hrun, State.fetchInstr, State.fetchWord, hpc, hcfg, State.memWrite_memRead hm hS hv]

theorem Profile.IW_eq_eight_mul_IB (p : Profile) : p.IW = 8 * p.IB := by cases p <;> rfl

/-- A block that takes a word of its own width is made ready and has the word stored at its pc. -/
theorem State.withFetchWord_IW (s : State) (w : Nat) :
    s.withFetchWord s.cfg.profile.IW w =
      s.readyToFetch.memWrite s.readyToFetch.pc s.cfg.profile.IB (w % 2 ^ s.cfg.profile.IW) := by
  obtain ⟨hcfg, -⟩ := s.readyToFetch_keeps
  simp only [State.withFetchWord, State.placeWord, placementProfile_IW, s.asProfile_self, hcfg]

/-- Settles O39: a block made ready is Running at an in-bounds pc, where the placed word is stored. -/
theorem placedWordRunsNext : Obligations.PlacedWordRunsNext := by
  intro s w hv hm
  obtain ⟨hcfg, hmem, hr⟩ := s.readyToFetch_keeps
  have hS := State.readyToFetch_inBounds hv
  have hlt : w % 2 ^ s.cfg.profile.IW < 2 ^ (8 * s.cfg.profile.IB) := by
    rw [← Profile.IW_eq_eight_mul_IB]
    exact Nat.mod_lt _ (Nat.two_pow_pos _)
  rw [s.withFetchWord_IW]
  rw [← hcfg] at hS hlt ⊢
  exact step_memWrite_pc hr (hmem ▸ hm) hS hlt

/-! ### The effect of an instruction -/

/-- What an instruction does before its pc update and the halt check (rule R91). -/
def State.effectOf (s : State) : Instr → State
  | .nopP32 | .nopP64 | .jmpP32 _ | .jmpP64 _ | .beqP32 _ _ _ | .beqP64 _ _ _ => s
  | .movP32 rd rs | .movP64 rd rs => s.moveReg rd rs
  | .addP32 rd rs1 rs2 | .addP64 rd rs1 rs2 => s.addRegs rd rs1 rs2
  | .loadP32 rd ra => s.loadReg rd (s.indirectAddr ra)
  | .loadP64 rd addr => s.loadReg rd (directAddr addr)
  | .storeP32 rs ra => s.storeReg rs (s.indirectAddr ra)
  | .storeP64 rs addr => s.storeReg rs (directAddr addr)
  | .setpixelP32 x y r g b a | .setpixelP64 x y r g b a => s.drawPixel x y r g b a
  | .unknownP32 op | .unknown8P64 op | .unknown16P64 op | .unknown32P64 op => s.reportUnknown op
  | .unknown64P64 op | .unknown128P64 op => s.reportUnknown op

theorem State.branchIfEqual_eq (s : State) (ra rb : Nat) (off : Int) :
    s.branchIfEqual ra rb off =
      if s.reg ra = s.reg rb then some (((s.pc : Int) + displacement s.cfg off) % (s.cfg.S : Int)).toNat
      else none := by
  simp only [State.branchIfEqual, State.regsEqual, decide_eq_true_eq, State.branchTarget,
    State.branchOffset_eq_displacement]

/-- An instruction is its effect and then the end of the step at the pc it sets, if it sets one (rules R91 and R92). -/
theorem exec_eq_retire (i : Instr) (s : State) :
    exec i s = s.onProfile i.profile ((s.effectOf i).retire (pcSet i s)) := by
  cases i with
  | beqP32 ra rb off => exact congrArg (fun o => s.onProfile .p32 (s.retire o)) (s.branchIfEqual_eq ra rb off)
  | beqP64 ra rb off => exact congrArg (fun o => s.onProfile .p64 (s.retire o)) (s.branchIfEqual_eq ra rb off)
  | _ => rfl

theorem State.drawPixel_effect (s : State) (x y r g b a : Nat) : Effect s (s.drawPixel x y r g b a) := by
  unfold State.drawPixel
  split
  · exact .memory _ _ (.inr rfl)
  · exact .nothing

theorem State.effectOf_effect (s : State) (i : Instr) : Effect s (s.effectOf i) := by
  cases i with
  | nopP32 | nopP64 | jmpP32 _ | jmpP64 _ | beqP32 _ _ _ | beqP64 _ _ _ => exact .nothing
  | movP32 _ _ | movP64 _ _ | addP32 _ _ _ | addP64 _ _ _ | loadP32 _ _ | loadP64 _ _ => exact .register _ _
  | storeP32 _ _ | storeP64 _ _ => exact .memory _ _ (.inl (length_leBytes _ _))
  | setpixelP32 _ _ _ _ _ _ | setpixelP64 _ _ _ _ _ _ => exact s.drawPixel_effect _ _ _ _ _ _
  | unknownP32 _ | unknown8P64 _ | unknown16P64 _ | unknown32P64 _ | unknown64P64 _ | unknown128P64 _ =>
    exact .event _

/-- No effect writes pc, `run_state` or `loaded` (rule R97). -/
theorem Effect.keeps_control (e : Effect s u) : u.pc = s.pc ∧ u.runState = s.runState ∧ u.loaded = s.loaded := by
  cases e with
  | nothing | register _ _ | event _ => exact ⟨rfl, rfl, rfl⟩
  | memory a bs _ => exact ⟨s.memWriteBytes_pc a bs, s.memWriteBytes_runState a bs, s.memWriteBytes_loaded a bs⟩

theorem Effect.target_eq (e : Effect s u) (o : Option Nat) : u.target o = s.target o := by
  rw [State.target, State.target, e.keeps_control.1, e.cfg_eq]

/-! ### The end of a step -/

/-- How a step ends after an effect that added the events `evs` (rules R91, R92 and R150). -/
theorem Effect.retire_ends {evs : List Event} (e : Effect s u) (hv : s.cfg.Valid) (hev : u.events = s.events ++ evs)
    (o : Option Nat) : Ends s (u.retire o) evs (s.target o) := by
  obtain ⟨-, hrun, hloaded⟩ := e.keeps_control
  have hcfg := e.cfg_eq
  refine ⟨(u.retire_cfg o).trans hcfg, (u.retire_loaded o).trans hloaded, ?_⟩
  rw [← e.target_eq o, ← hcfg]
  obtain ⟨hle, h⟩ | ⟨hlt, h⟩ := u.retire_cases o
  · rw [h]
    refine ⟨fun hlt => absurd hle hlt.not_ge, fun _ => ⟨u.stopWith_pc _, u.stopWith_runState _, ?_⟩⟩
    rw [← hev]
    exact u.stopWith_events _
  · refine ⟨fun _ => ⟨State.retire_pc (by rwa [hcfg]) hlt, ?_⟩, fun hle => absurd hle hlt.not_ge⟩
    rw [h]
    exact ⟨hrun, hev⟩

theorem Effect.events_append (e : Effect s u) : ∃ evs, u.events = s.events ++ evs := by
  obtain h | ⟨k, h⟩ := e.events_cases
  · exact ⟨[], h.trans (List.append_nil _).symm⟩
  · exact ⟨_, h⟩

/-- Every instruction of the block's profile answers, and ends its step at the pc it sets or at the next instruction
(rules R92 and R142). -/
theorem exec_ends {i : Instr} (hp : s.cfg.profile = i.profile) (hv : s.cfg.Valid) :
    ∃ t evs, exec i s = .next t ∧ Ends s t evs (s.target (pcSet i s)) := by
  have he := s.effectOf_effect i
  obtain ⟨evs, hev⟩ := he.events_append
  exact ⟨_, evs, (exec_eq_retire i s).trans (s.onProfile_same _ hp), he.retire_ends hv hev _⟩

/-- Settles O28: the step ends at the instruction's own target, or at its address and width, or in the halt. -/
theorem pcUpdateRule : Obligations.PcUpdateRule := by
  intro i s hp hv
  obtain ⟨t, evs, hexec, -, -, hnext, hhalt⟩ := exec_ends hp hv
  rw [State.target, hp] at hnext hhalt
  exact ⟨t, hexec, fun h => (hnext h).1, fun h => (hhalt h).1⟩

/-! ### Unknown opcodes -/

/-- Rule R93 for a row whose words the decoder reads and whose arm reports the opcode. -/
theorem unknownRow_of {p : Profile} {row : Nat → Instr} {lo hi low : Nat}
    (hdecode : ∀ k d, inOpcodeRow lo hi k = true → d < 2 ^ low → decodeWord p (2 ^ low * k + d) = row k)
    (hexec : ∀ (s : State) (k : Nat), s.cfg.profile = p → exec (row k) s = .next ((s.reportUnknown k).retire none)) :
    UnknownRow p row lo hi low := by
  intro s k d hp hv hlo hhi hd
  refine ⟨hdecode k d (inOpcodeRow_iff.mpr ⟨hlo, hhi⟩) hd, _, hexec s k hp, fun j _ => State.retire_reg _ none j,
    fun b => ?_, ?_⟩
  · rw [State.byteAt, State.retire_mem]
    rfl
  · rw [← hp]
    exact (Effect.event k).retire_ends hv (s.emit_events _) none

/-- Settles O26: in each row the decoder ignores the bits below the opcode, and the arm emits and retires. -/
theorem unknownOpcodeIsReported : Obligations.UnknownOpcodeIsReported :=
  ⟨unknownRow_of (fun k _ => decodeWord_encode_add (i := .unknownP32 k)) fun _ k h => exec_unknownP32 h k,
    unknownRow_of (fun k _ => decodeWord_encode_add (i := .unknown8P64 k)) fun _ k h => exec_unknown8P64 h k,
    unknownRow_of (fun k _ => decodeWord_encode_add (i := .unknown16P64 k)) fun _ k h => exec_unknown16P64 h k,
    unknownRow_of (fun k _ => decodeWord_encode_add (i := .unknown32P64 k)) fun _ k h => exec_unknown32P64 h k,
    unknownRow_of (fun k _ => decodeWord_encode_add (i := .unknown64P64 k)) fun _ k h => exec_unknown64P64 h k,
    unknownRow_of (fun k _ => decodeWord_encode_add (i := .unknown128P64 k)) fun _ k h => exec_unknown128P64 h k⟩

/-! ### The one destination -/

theorem regWritten_eq_none_or_bytesWritten_eq_none (i : Instr) (s : State) :
    regWritten i = none ∨ bytesWritten i s = none := by
  cases i with
  | movP32 _ _ | movP64 _ _ | addP32 _ _ _ | addP64 _ _ _ | loadP32 _ _ | loadP64 _ _ => exact .inr rfl
  | _ => exact .inl rfl

theorem State.setReg_reg_of_ne {i j : Nat} (v : Nat) (hi : i < s.cfg.profile.N) (hj : j < s.cfg.profile.N)
    (h : j ≠ i) : (s.setReg i v).reg j = s.reg j := by
  rw [s.setReg_reg, s.clamp_of_lt hi, s.clamp_of_lt hj, if_neg h]

/-- A destination field names one of the N registers, so the clamp of rule R23 does not move the write. -/
theorem regWritten_lt {i : Instr} {rd : Nat} (hwf : i.wf = true) (h : regWritten i = some rd) :
    rd < i.profile.N := by
  cases i with
  | movP32 _ _ | movP64 _ _ | addP32 _ _ _ | addP64 _ _ _ | loadP32 _ _ | loadP64 _ _ =>
    cases h
    simp only [Instr.wf, fitsField_iff, Bool.and_eq_true] at hwf
    simp only [Instr.profile, Profile.N]
    omega
  | _ => cases h

theorem State.effectOf_of_regWritten {i : Instr} {rd : Nat} (s : State) (h : regWritten i = some rd) :
    ∃ v, s.effectOf i = s.setReg rd v := by
  cases i with
  | movP32 _ _ | movP64 _ _ | addP32 _ _ _ | addP64 _ _ _ | loadP32 _ _ | loadP64 _ _ => cases h; exact ⟨_, rfl⟩
  | _ => cases h

@[simp] theorem State.drawPixel_reg (s : State) (x y r g b a j : Nat) :
    (s.drawPixel x y r g b a).reg j = s.reg j := by
  unfold State.drawPixel
  split
  · exact s.memWriteBytes_reg _ _ j
  · rfl

theorem State.effectOf_reg_of_regWritten_none {i : Instr} (s : State) (h : regWritten i = none) (j : Nat) :
    (s.effectOf i).reg j = s.reg j := by
  cases i with
  | movP32 _ _ | movP64 _ _ | addP32 _ _ _ | addP64 _ _ _ | loadP32 _ _ | loadP64 _ _ => cases h
  | storeP32 _ _ | storeP64 _ _ => exact s.memWriteBytes_reg _ _ j
  | setpixelP32 _ _ _ _ _ _ | setpixelP64 _ _ _ _ _ _ => exact s.drawPixel_reg _ _ _ _ _ _ j
  | _ => rfl

theorem State.effectOf_reg {i : Instr} {j : Nat} (hp : s.cfg.profile = i.profile) (hwf : i.wf = true)
    (hj : j < s.cfg.profile.N) (h : regWritten i ≠ some j) : (s.effectOf i).reg j = s.reg j := by
  cases hr : regWritten i with
  | none => exact s.effectOf_reg_of_regWritten_none hr j
  | some rd =>
    obtain ⟨v, hv⟩ := s.effectOf_of_regWritten hr
    rw [hv]
    exact State.setReg_reg_of_ne v (hp ▸ regWritten_lt hwf hr) hj fun hjrd => h (hjrd ▸ hr)

/-- A number's bytes land in its range, and nowhere when it is out of bounds (rules R42 and R50). -/
theorem State.memWrite_byteAt_outside {a k b : Nat} (v : Nat) (hm : s.mem.wf = true)
    (h : a + k ≤ s.cfg.S → b < a ∨ a + k ≤ b) : (s.memWrite a k v).byteAt b = s.byteAt b := by
  obtain ⟨hin, hout⟩ := State.memWrite_stored a k v hm
  by_cases hS : a + k ≤ s.cfg.S
  · exact (hin hS).2 b (h hS)
  · exact hout (Nat.lt_of_not_le hS) b

theorem State.drawPixel_byteAt_outside {x y b : Nat} (r g c a : Nat) (hm : s.mem.wf = true)
    (h : x < s.cfg.fbW ∧ y < s.cfg.fbH → b < s.pixelAddr x y ∨ s.pixelAddr x y + 4 ≤ b) :
    (s.drawPixel x y r g c a).byteAt b = s.byteAt b := by
  unfold State.drawPixel
  split
  next hin =>
    rw [State.pixelInRange, Bool.and_eq_true, decide_eq_true_iff, decide_eq_true_iff] at hin
    exact s.memWriteBytes_byteAt_outside _ hm (h hin)
  next => rfl

theorem State.effectOf_byteAt {i : Instr} {b : Nat} (hp : s.cfg.profile = i.profile) (hm : s.mem.wf = true)
    (h : ∀ a k, bytesWritten i s = some (a, k) → b < a ∨ a + k ≤ b) : (s.effectOf i).byteAt b = s.byteAt b := by
  cases i with
  | storeP32 _ _ | storeP64 _ _ =>
    refine State.memWrite_byteAt_outside _ hm ?_
    rw [hp]
    exact fun hS => h _ _ (if_pos hS)
  | setpixelP32 _ _ _ _ _ _ | setpixelP64 _ _ _ _ _ _ =>
    exact State.drawPixel_byteAt_outside _ _ _ _ hm fun hin => h _ _ (if_pos hin)
  | _ => rfl

/-- The end of a step changes the run-state only by the forced halt (rules R97 and R150). -/
theorem State.retire_runState_cases (s : State) (o : Option Nat) :
    (s.retire o).runState = s.runState ∨ ((s.retire o).runState = .halted ∧ (s.retire o).pc = 0 ∧
      (s.retire o).events.getLast? = some (Event.stopped .memoryExhausted)) := by
  obtain ⟨-, h⟩ | ⟨-, h⟩ := s.retire_cases o <;> rw [h]
  · exact .inr ⟨s.stopWith_runState _, s.stopWith_pc _, by rw [s.stopWith_events, List.getLast?_concat]⟩
  · exact .inl rfl

/-- Settles O29: the effect writes the one destination, and the end of the step writes pc and control state alone. -/
theorem oneDestinationPerInstruction : Obligations.OneDestinationPerInstruction := by
  intro i s t hwf hm h
  rw [exec_eq_retire] at h
  obtain ⟨hp, rfl⟩ := s.onProfile_next h
  have he := s.effectOf_effect i
  obtain ⟨-, hrun, hloaded⟩ := he.keeps_control
  refine ⟨regWritten_eq_none_or_bytesWritten_eq_none i s, fun j hj hne => ?_, fun b hb => ?_,
    (State.retire_loaded _ _).trans hloaded, (State.retire_cfg _ _).trans he.cfg_eq, ?_⟩
  · rw [State.retire_reg, State.effectOf_reg hp hwf hj hne]
  · rw [State.byteAt, State.retire_mem]
    exact State.effectOf_byteAt hp hm hb
  · rw [← hrun]
    exact State.retire_runState_cases _ _

end Sys2Proof.Machine
end

section
/-!
PROOFS. NOP, MOV and ADD (spec/41_alu.md): what their words decode to, the register they write, all that they leave
unchanged, and the signed reading of a sum.
-/

namespace Sys2Proof

/-! ### The signed reading -/

/-- The signed reading of an n-bit field is its balanced remainder (rule R10). -/
theorem sext_eq_bmod {n f : Nat} (hn : 0 < n) (h : f < 2 ^ n) : sext n f = Int.bmod f (2 ^ n) := by
  obtain ⟨m, rfl⟩ : ∃ m, n = m + 1 := ⟨n - 1, by omega⟩
  have hmod : (f : Int) % ((2 ^ (m + 1) : Nat) : Int) = f := by exact_mod_cast Nat.mod_eq_of_lt h
  have hhalf : (f : Int) < (((2 ^ (m + 1) : Nat) : Int) + 1) / 2 ↔ f < 2 ^ m := by omega
  rw [sext_succ_eq h, Int.bmod_def, hmod, if_congr hhalf rfl rfl, Nat.cast_pow, Nat.cast_ofNat]

/-- A sum mod `2^n`, read signed, is the wrapped sum of the signed readings (rule R103). -/
theorem sext_add_mod {n a b : Nat} (hn : 0 < n) (ha : a < 2 ^ n) (hb : b < 2 ^ n) :
    sext n ((a + b) % 2 ^ n) = Int.bmod (sext n a + sext n b) (2 ^ n) := by
  have hlt : (a + b) % 2 ^ n < 2 ^ n := Nat.mod_lt _ (Nat.two_pow_pos n)
  rw [sext_eq_bmod hn hlt, sext_eq_bmod hn ha, sext_eq_bmod hn hb, Int.bmod_add_bmod, Int.add_bmod_bmod]
  simp only [Nat.cast_add, Int.natCast_emod, Int.emod_bmod]

theorem Profile.W_pos (p : Profile) : 0 < p.W := by cases p <;> decide

end Sys2Proof

namespace Sys2Proof.Machine

open Sys2Proof.Claims

variable {s : State}

/-! ### Instructions that write one register -/

@[simp] theorem State.retire_byteAt (s : State) (o : Option Nat) (b : Nat) : (s.retire o).byteAt b = s.byteAt b :=
  congrArg (Memory.get · b) (s.retire_mem o)

theorem State.setReg_reg_self (s : State) (i v : Nat) : (s.setReg i v).reg i = v % 2 ^ s.cfg.profile.W := by
  rw [s.setReg_reg, if_pos rfl]

/-- MOV's value is read from a register, so it fits one (rule R101). -/
theorem State.moveReg_reg_self (s : State) (rd rs : Nat) : (s.moveReg rd rs).reg rd = s.reg rs := by
  rw [State.moveReg, State.setReg_reg_self, Nat.mod_eq_of_lt (s.reg_lt rs)]

theorem State.addRegs_reg_self (s : State) (rd rs1 rs2 : Nat) :
    (s.addRegs rd rs1 rs2).reg rd = (s.reg rs1 + s.reg rs2) % 2 ^ s.cfg.profile.W := by
  rw [State.addRegs, State.setReg_reg_self, Nat.mod_mod]

/-- An instruction that writes a register goes on at the next instruction (rules R92 and R97). -/
theorem pcSet_of_regWritten {i : Instr} {rd : Nat} (s : State) (h : regWritten i = some rd) : pcSet i s = none := by
  cases i with
  | movP32 _ _ | movP64 _ _ | addP32 _ _ _ | addP64 _ _ _ | loadP32 _ _ | loadP64 _ _ => rfl
  | _ => cases h

/-- An instruction whose destination is the register `rd`, with any ignored bits in its word: what the word decodes to,
the value in `rd` after it, all that it keeps, and the advance to the next instruction (rules R67, R92 and R97). -/
theorem decodeWord_exec_of_regWritten {i : Instr} {rd v d : Nat} (hp : s.cfg.profile = i.profile) (hv : s.cfg.Valid)
    (hwf : i.wf = true) (hd : d < 2 ^ i.ignoredBits) (hrd : regWritten i = some rd)
    (hval : (s.effectOf i).reg rd = v) :
    decodeWord i.profile (encode i + d) = i ∧
      ∃ t, exec i s = .next t ∧ t.reg rd = v ∧ SameRegsBut rd s t ∧ SameBytes s t ∧
        Ends s t [] (s.pc + i.profile.IB) := by
  obtain ⟨w, hw⟩ := s.effectOf_of_regWritten hrd
  have hexec : exec i s = .next ((s.effectOf i).retire none) := by
    rw [exec_eq_retire, s.onProfile_same _ hp, pcSet_of_regWritten s hrd]
  refine ⟨decodeWord_encode_add hwf hd, _, hexec, ?value, fun j hj hne => ?others, fun b => ?bytes, ?ends⟩
  case value => rw [State.retire_reg, hval]
  case others =>
    have hdest : regWritten i ≠ some j := fun h => hne (Option.some_inj.mp (h.symm.trans hrd))
    rw [State.retire_reg, State.effectOf_reg hp hwf hj hdest]
  case bytes =>
    rw [State.retire_byteAt, hw]
    rfl
  case ends =>
    rw [← hp, hw]
    exact (Effect.register rd w).retire_ends hv (List.append_nil _).symm none

/-! ### MOV -/

/-- Settles O17: MOV writes its one destination, with a value that fits it. -/
theorem movCopiesRegister : Obligations.MovCopiesRegister := by
  refine ⟨fun s rd rs d hp hv hrd hrs hd => ?p32, fun s rd rs d hp hv hrd hrs hd => ?p64⟩
  case p32 =>
    have hwf : (Instr.movP32 rd rs).wf = true := by simp [Instr.wf, fitsField, hrd, hrs]
    exact decodeWord_exec_of_regWritten hp hv hwf hd rfl (s.moveReg_reg_self rd rs)
  case p64 =>
    have hwf : (Instr.movP64 rd rs).wf = true := by simp [Instr.wf, fitsField, hrd, hrs]
    exact decodeWord_exec_of_regWritten hp hv hwf hd rfl (s.moveReg_reg_self rd rs)

/-! ### ADD -/

/-- Settles O18: ADD writes its one destination, with the sum of the old registers. -/
theorem addWrapsAtWidth : Obligations.AddWrapsAtWidth := by
  refine ⟨fun s rd rs1 rs2 d hp hv hrd hrs1 hrs2 hd => ?p32, fun s rd rs1 rs2 d hp hv hrd hrs1 hrs2 hd => ?p64⟩
  all_goals
    have hsum := s.addRegs_reg_self rd rs1 rs2
    rw [hp] at hsum
  case p32 =>
    have hwf : (Instr.addP32 rd rs1 rs2).wf = true := by simp [Instr.wf, fitsField, hrd, hrs1, hrs2]
    exact decodeWord_exec_of_regWritten hp hv hwf hd rfl hsum
  case p64 =>
    have hwf : (Instr.addP64 rd rs1 rs2).wf = true := by simp [Instr.wf, fitsField, hrd, hrs1, hrs2]
    exact decodeWord_exec_of_regWritten hp hv hwf hd rfl hsum

/-- Settles O19: the sum mod `2^W` is what ADD leaves in `rd`, and reading it signed wraps the signed sum. -/
theorem addIsTwosComplementSum : Obligations.AddIsTwosComplementSum := by
  intro s rd rs1 rs2 _
  refine ⟨(s.addRegs rd rs1 rs2).retire none, ?exec, ?sum⟩
  case exec =>
    split
    next hp => exact exec_addP32 hp rd rs1 rs2
    next hp => exact exec_addP64 hp rd rs1 rs2
  case sum =>
    rw [State.retire_reg, State.addRegs_reg_self]
    exact sext_add_mod s.cfg.profile.W_pos (s.reg_lt rs1) (s.reg_lt rs2)

/-! ### NOP -/

theorem State.retire_none_onlyAdvances (hv : s.cfg.Valid) :
    SameRegs s (s.retire none) ∧ SameBytes s (s.retire none) ∧
      Ends s (s.retire none) [] (s.pc + s.cfg.profile.IB) :=
  ⟨fun j _ => s.retire_reg none j, s.retire_byteAt none,
    Effect.nothing.retire_ends hv (List.append_nil _).symm none⟩

/-- Settles O16: the decoder ignores all bits below a zero opcode, and NOP is the end of a step alone. -/
theorem nopOnlyAdvances : Obligations.NopOnlyAdvances := by
  refine ⟨fun s d hp hv hd => ?p32, fun s d hp hv hd => ?p64⟩
  all_goals
    have hkeeps := State.retire_none_onlyAdvances hv
    rw [hp] at hkeeps
  case p32 =>
    exact ⟨Nat.zero_add d ▸ decodeWord_encode_add (i := .nopP32) rfl hd, _, exec_nopP32 hp, hkeeps⟩
  case p64 =>
    exact ⟨Nat.zero_add d ▸ decodeWord_encode_add (i := .nopP64) rfl hd, _, exec_nopP64 hp, hkeeps⟩

end Sys2Proof.Machine
end

section
/-!
PROOFS. LOAD and STORE (spec/42_load_store.md): the word LOAD reads into its register, the bytes STORE writes and all
that it leaves unchanged, and that a LOAD reads what a STORE wrote.
-/

namespace Sys2Proof

/-- An instruction of two operand fields is well-formed when both operands fit (rules R63 and R64). -/
theorem fitsField_and {m n a b : Nat} (ha : a < 2 ^ m) (hb : b < 2 ^ n) :
    (fitsField m a && fitsField n b) = true :=
  Bool.and_eq_true_iff.mpr ⟨fitsField_iff.mpr ha, fitsField_iff.mpr hb⟩

end Sys2Proof

namespace Sys2Proof.Machine

open Sys2Proof.Claims

variable {s : State}

/-! ### LOAD -/

/-- A register and a word of memory have the same bits: neither a LOAD nor a STORE extends or truncates (rules R110 and
R111). -/
theorem Profile.W_eq_eight_mul_WB (p : Profile) : p.W = 8 * p.WB := by
  rw [Profile.W_eq_eight_mul_IB, Profile.WB_eq_IB]

/-- LOAD's value is a full word, which a register holds as it is (rule R110). -/
theorem State.loadReg_reg_self (s : State) (rd a : Nat) :
    (s.loadReg rd a).reg rd = s.memRead a s.cfg.profile.WB := by
  have hlt : s.memRead a s.cfg.profile.WB < 2 ^ s.cfg.profile.W := by
    rw [Profile.W_eq_eight_mul_WB, Nat.pow_mul]
    exact s.memRead_lt a _
  rw [State.loadReg, State.setReg_reg_self, Nat.mod_eq_of_lt hlt]

theorem State.loadReg_reg_eq_littleEndian (s : State) (rd a : Nat) :
    (s.loadReg rd a).reg rd =
      if a + s.cfg.profile.WB ≤ s.cfg.S then littleEndian s a s.cfg.profile.WB else 0 :=
  (s.loadReg_reg_self rd a).trans (memReadIsLittleEndianSum s a _)

/-- Settles O20: LOAD writes its one destination, with the word it reads from the old state. -/
theorem loadReadsWord : Obligations.LoadReadsWord := by
  refine ⟨fun s rd ra d hp hv hrd hra hd => ?p32, fun s rd addr hp hv hrd haddr => ?p64⟩
  case p32 =>
    have hword := s.loadReg_reg_eq_littleEndian rd (s.indirectAddr ra)
    rw [hp] at hword
    have hwf : (Instr.loadP32 rd ra).wf = true := fitsField_and hrd hra
    exact decodeWord_exec_of_regWritten hp hv hwf hd rfl hword
  case p64 =>
    have hword := s.loadReg_reg_eq_littleEndian rd (directAddr addr)
    rw [hp] at hword
    have hwf : (Instr.loadP64 rd addr).wf = true := fitsField_and hrd haddr
    exact decodeWord_exec_of_regWritten (d := 0) hp hv hwf Nat.one_pos rfl hword

/-! ### STORE -/

/-- The end of a step writes no byte. -/
theorem stored_retire {a k v : Nat} {u : State} (h : Stored a k v s u) (o : Option Nat) :
    Stored a k v s (u.retire o) := by
  simpa only [Stored, SameBytesOutside, SameBytes, State.retire_byteAt] using h

theorem State.storeReg_effect (s : State) (rs a : Nat) : Effect s (s.storeReg rs a) :=
  .memory a _ (.inl (length_leBytes _ _))

@[simp] theorem State.storeReg_reg (s : State) (rs a j : Nat) : (s.storeReg rs a).reg j = s.reg j :=
  s.memWriteBytes_reg a _ j

@[simp] theorem State.storeReg_cfg (s : State) (rs a : Nat) : (s.storeReg rs a).cfg = s.cfg :=
  s.memWriteBytes_cfg a _

/-- A STORE's step in either profile: the word's bytes, no register, no event, and the advance (rule R111). -/
theorem State.storeReg_retire (rs a : Nat) (hv : s.cfg.Valid) (hm : s.mem.wf = true) :
    Stored a s.cfg.profile.WB (s.reg rs) s ((s.storeReg rs a).retire none) ∧
      SameRegs s ((s.storeReg rs a).retire none) ∧
      Ends s ((s.storeReg rs a).retire none) [] (s.pc + s.cfg.profile.IB) := by
  refine ⟨stored_retire (State.memWrite_stored a _ _ hm) none, fun j _ => ?regs, ?ends⟩
  case regs => rw [State.retire_reg, State.storeReg_reg]
  case ends =>
    have hev : (s.storeReg rs a).events = s.events ++ [] :=
      (s.memWriteBytes_events a _).trans (List.append_nil _).symm
    exact (s.storeReg_effect rs a).retire_ends hv hev none

/-- Settles O21: STORE writes the bytes of its register, lowest first, and then only ends the step. -/
theorem storeWritesWord : Obligations.StoreWritesWord := by
  refine ⟨fun s rs ra d hp hv hm hrs hra hd => ?p32, fun s rs addr hp hv hm hrs haddr => ?p64⟩
  case p32 =>
    have hstore := State.storeReg_retire rs (s.indirectAddr ra) hv hm
    rw [hp] at hstore
    have hwf : (Instr.storeP32 rs ra).wf = true := fitsField_and hrs hra
    exact ⟨decodeWord_encode_add hwf hd, _, exec_storeP32 hp rs ra, hstore⟩
  case p64 =>
    have hstore := State.storeReg_retire rs (directAddr addr) hv hm
    rw [hp] at hstore
    have hwf : (Instr.storeP64 rs addr).wf = true := fitsField_and hrs haddr
    exact ⟨decodeWord_encode hwf, _, exec_storeP64 hp rs addr, hstore⟩

/-! ### LOAD after STORE -/

/-- In bounds, a LOAD at a STORE's address reads the register that was stored, in either profile (rule R176). -/
theorem State.storeReg_retire_loadReg_reg (rs rd : Nat) {a : Nat} (o : Option Nat) (hm : s.mem.wf = true)
    (hS : a + s.cfg.profile.WB ≤ s.cfg.S) :
    (((s.storeReg rs a).retire o).loadReg rd a).reg rd = s.reg rs := by
  have hfits := s.reg_lt rs
  rw [Profile.W_eq_eight_mul_WB] at hfits
  rw [State.loadReg_reg_self, State.retire_cfg, State.storeReg_cfg,
    State.memRead_congr (State.retire_cfg _ o) (State.retire_mem _ o), State.storeReg,
    State.memWrite_memRead hm hS hfits]

/-- Settles O31: STORE keeps the registers, so LOAD's address is STORE's, where the stored word is read back. -/
theorem loadAfterStoreGivesStored : Obligations.LoadAfterStoreGivesStored := by
  refine ⟨fun s t rs rd ra hp hm _ hS hstore => ?p32, fun s t rs rd addr hp hm _ hS hstore => ?p64⟩
  case p32 =>
    obtain ⟨-, rfl⟩ := s.onProfile_next hstore
    have hpt : ((s.storeReg rs (s.indirectAddr ra)).retire none).cfg.profile = .p32 := by simpa using hp
    have haddr : ((s.storeReg rs (s.indirectAddr ra)).retire none).indirectAddr ra = s.indirectAddr ra := by
      simp [State.indirectAddr]
    refine ⟨_, exec_loadP32 hpt rd ra, ?_⟩
    rw [haddr, State.retire_reg]
    exact State.storeReg_retire_loadReg_reg rs rd none hm (by rw [hp]; exact hS)
  case p64 =>
    obtain ⟨-, rfl⟩ := s.onProfile_next hstore
    have hpt : ((s.storeReg rs (directAddr addr)).retire none).cfg.profile = .p64 := by simpa using hp
    refine ⟨_, exec_loadP64 hpt rd addr, ?_⟩
    rw [State.retire_reg]
    exact State.storeReg_retire_loadReg_reg rs rd none hm (by rw [hp]; exact hS)

end Sys2Proof.Machine
end

section
/-!
PROOFS. SETPIXEL (spec/43_setpixel.md): the scaling of a channel field to one byte, the four bytes of the pixel, and
all that the instruction leaves unchanged.
-/

namespace Sys2Proof

/-! ### The fields -/

/-- The operand ranges of a P32 SETPIXEL (rule R63). -/
theorem Instr.wf_setpixelP32 {x y r g b a : Nat} : (Instr.setpixelP32 x y r g b a).wf = true ↔
    x < 64 ∧ y < 64 ∧ r < 16 ∧ g < 16 ∧ b < 16 ∧ a < 16 := by
  simp [Instr.wf, fitsField_iff, and_assoc]

/-- The operand ranges of a P64 SETPIXEL (rule R64). -/
theorem Instr.wf_setpixelP64 {x y r g b a : Nat} : (Instr.setpixelP64 x y r g b a).wf = true ↔
    x < 4096 ∧ y < 4096 ∧ r < 256 ∧ g < 256 ∧ b < 256 ∧ a < 256 := by
  simp [Instr.wf, fitsField_iff, and_assoc]

end Sys2Proof

namespace Sys2Proof.Machine

open Sys2Proof.Claims

variable {s : State}

/-! ### Channel scaling -/

/-- P32's multiplier (rule R121). -/
theorem scale_p32 (v : Nat) : scale Profile.p32.CW v = 17 * v := Nat.mul_comm v 17

/-- P64's multiplier: a channel is its own byte (rule R121). -/
theorem scale_p64 (v : Nat) : scale Profile.p64.CW v = v := Nat.mul_one v

/-- The floor form scales the largest raw value to at most 255, whatever the field's width (rule R121). -/
theorem scale_le {cw v : Nat} (hv : v ≤ 2 ^ cw - 1) : scale cw v ≤ 255 :=
  calc v * (255 / (2 ^ cw - 1)) ≤ (2 ^ cw - 1) * (255 / (2 ^ cw - 1)) := Nat.mul_le_mul_right _ hv
    _ ≤ 255 := Nat.mul_div_le 255 (2 ^ cw - 1)

/-- Settles O23: the floor form by definition, its bound from the largest raw value's, and the eight rows evaluated. -/
theorem channelScalingTable : Obligations.ChannelScalingTable :=
  ⟨fun _ _ _ _ hv => ⟨rfl, scale_le hv⟩, by decide, rfl, rfl⟩

/-! ### The pixel's bytes -/

theorem State.pixelBytes_p32 (hp : s.cfg.profile = .p32) (r g b a : Nat) :
    s.pixelBytes r g b a =
      [BitVec.ofNat 8 (17 * r), BitVec.ofNat 8 (17 * g), BitVec.ofNat 8 (17 * b), BitVec.ofNat 8 (17 * a)] := by
  simp only [State.pixelBytes, hp, scale_p32]

theorem State.pixelBytes_p64 (hp : s.cfg.profile = .p64) (r g b a : Nat) :
    s.pixelBytes r g b a = [BitVec.ofNat 8 r, BitVec.ofNat 8 g, BitVec.ofNat 8 b, BitVec.ofNat 8 a] := by
  simp only [State.pixelBytes, hp, scale_p64]

/-- The pixel's four bytes are written when its coordinates are in range, where rule R6 keeps them inside memory, and
nothing otherwise (rules R43 and R120). -/
theorem State.drawPixel_drawn {x y r g b a : Nat} {r' g' b' a' : Byte}
    (hbytes : s.pixelBytes r g b a = [r', g', b', a']) (hv : s.cfg.Valid) (hm : s.mem.wf = true) :
    Drawn x y r' g' b' a' s (s.drawPixel x y r g b a) := by
  refine ⟨fun ⟨hx, hy⟩ => ?inRange, fun hout c => ?outOfRange⟩
  case inRange =>
    have hS : s.pixelAddr x y + 4 ≤ s.cfg.S := State.pixelByte_lt_S (c := 3) hv hx hy (by decide)
    obtain ⟨hin, -⟩ := memWriteBytesStoresEachByte s (s.pixelAddr x y) [r', g', b', a'] hm
    obtain ⟨hbyte, hother⟩ := hin hS
    rw [State.drawPixel_of_lt r g b a hx hy, hbytes]
    exact ⟨hbyte 0 (by simp), hbyte 1 (by simp), hbyte 2 (by simp), hbyte 3 (by simp), hother⟩
  case outOfRange => exact State.drawPixel_byteAt_outside r g b a hm fun hin => absurd hin hout

/-- The end of a step writes no byte. -/
theorem drawn_retire {x y : Nat} {r g b a : Byte} {u : State} (h : Drawn x y r g b a s u) (o : Option Nat) :
    Drawn x y r g b a s (u.retire o) := by
  simpa only [Drawn, SameBytesOutside, SameBytes, State.retire_byteAt] using h

/-! ### SETPIXEL -/

@[simp] theorem State.drawPixel_events (s : State) (x y r g b a : Nat) :
    (s.drawPixel x y r g b a).events = s.events := by
  unfold State.drawPixel
  split
  · exact s.memWriteBytes_events _ _
  · rfl

/-- A SETPIXEL's step in either profile: the pixel's bytes, no register, no event, and the advance (rule R120). -/
theorem State.drawPixel_retire (x y : Nat) {r g b a : Nat} {r' g' b' a' : Byte}
    (hbytes : s.pixelBytes r g b a = [r', g', b', a']) (hv : s.cfg.Valid) (hm : s.mem.wf = true) :
    Drawn x y r' g' b' a' s ((s.drawPixel x y r g b a).retire none) ∧
      SameRegs s ((s.drawPixel x y r g b a).retire none) ∧
      Ends s ((s.drawPixel x y r g b a).retire none) [] (s.pc + s.cfg.profile.IB) := by
  refine ⟨drawn_retire (State.drawPixel_drawn hbytes hv hm) none, fun j _ => ?regs, ?ends⟩
  case regs => rw [State.retire_reg, State.drawPixel_reg]
  case ends =>
    have hev : (s.drawPixel x y r g b a).events = s.events ++ [] :=
      (s.drawPixel_events x y r g b a).trans (List.append_nil _).symm
    exact (s.drawPixel_effect x y r g b a).retire_ends hv hev none

/-- Settles O22: SETPIXEL writes the pixel's four scaled bytes, or nothing, and then only ends the step. -/
theorem setPixelWritesScaledPixel : Obligations.SetPixelWritesScaledPixel := by
  refine ⟨fun s x y r g b a hp hv hm hx hy hr hg hb ha => ?p32,
    fun s x y r g b a hp hv hm hx hy hr hg hb ha => ?p64⟩
  case p32 =>
    have hdraw := State.drawPixel_retire x y (State.pixelBytes_p32 hp r g b a) hv hm
    rw [hp] at hdraw
    have hwf := Instr.wf_setpixelP32.mpr ⟨hx, hy, hr, hg, hb, ha⟩
    exact ⟨decodeWord_encode hwf, _, exec_setpixelP32 hp x y r g b a, hdraw⟩
  case p64 =>
    have hdraw := State.drawPixel_retire x y (State.pixelBytes_p64 hp r g b a) hv hm
    rw [hp] at hdraw
    have hwf := Instr.wf_setpixelP64.mpr ⟨hx, hy, hr, hg, hb, ha⟩
    exact ⟨decodeWord_encode hwf, _, exec_setpixelP64 hp x y r g b a, hdraw⟩

end Sys2Proof.Machine
end

section
/-!
PROOFS. JMP and BEQ (spec/44_control.md): the pc they set, that it is all they write, and the displacement of a branch
modulo S under either reading of the offset field.
-/

namespace Sys2Proof.Machine

open Sys2Proof.Claims

variable {s : State}

/-! ### An instruction whose whole effect is the pc it sets -/

/-- The end of a step writes no register and no byte; pc goes to the target, or the block halts (rules R92 and
R150). -/
theorem State.retire_onlySetsPc (hv : s.cfg.Valid) (o : Option Nat) :
    SameRegs s (s.retire o) ∧ SameBytes s (s.retire o) ∧ Ends s (s.retire o) [] (s.target o) :=
  ⟨fun j _ => s.retire_reg o j, s.retire_byteAt o, Effect.nothing.retire_ends hv (List.append_nil _).symm o⟩

/-! ### JMP -/

/-- Settles O24: JMP is the end of a step whose target is the address field. -/
theorem jmpSetsPc : Obligations.JmpSetsPc := by
  refine ⟨fun s addr hp hv haddr => ?p32, fun s addr hp hv haddr => ?p64⟩
  all_goals have hjump := State.retire_onlySetsPc hv (some (jumpTarget addr))
  case p32 =>
    have hwf : (Instr.jmpP32 addr).wf = true := fitsField_iff.mpr haddr
    exact ⟨decodeWord_encode hwf, _, exec_jmpP32 hp addr, hjump⟩
  case p64 =>
    have hwf : (Instr.jmpP64 addr).wf = true := fitsField_iff.mpr haddr
    exact ⟨decodeWord_encode hwf, _, exec_jmpP64 hp addr, hjump⟩

/-! ### BEQ -/

/-- Where the operand is read signed it is the displacement itself; where S divides `2^BOW` the field is the same
displacement modulo S (rule R131, decision D8). -/
theorem State.branchOffset_modEq (off : Int)
    (h : s.cfg.offsetReading = .signed ∨ s.cfg.S ∣ 2 ^ s.cfg.profile.BOW) :
    s.branchOffset off ≡ off [ZMOD s.cfg.S] := by
  cases hread : s.cfg.offsetReading with
  | signed => rw [s.branchOffset_signed off hread]
  | unsigned =>
    have hdvd : (s.cfg.S : Int) ∣ 2 ^ s.cfg.profile.BOW := by
      have hS := h.resolve_left (by rw [hread]; decide)
      exact_mod_cast hS
    have hfield : s.branchOffset off = off % 2 ^ s.cfg.profile.BOW := by
      rw [s.branchOffset_eq_displacement, displacement, hread]
    rw [hfield]
    exact (Int.mod_modEq off _).of_dvd hdvd

theorem State.branchIfEqual_of_eq {ra rb : Nat} (off : Int) (h : s.reg ra = s.reg rb) :
    s.branchIfEqual ra rb off = some (s.branchTarget off) :=
  if_pos (decide_eq_true h)

theorem State.branchIfEqual_of_ne {ra rb : Nat} (off : Int) (h : s.reg ra ≠ s.reg rb) :
    s.branchIfEqual ra rb off = none :=
  if_neg fun hdec => h (of_decide_eq_true hdec)

/-- A taken BEQ depends on its displacement modulo S alone, and its target, below S, never halts (rule R131). -/
theorem State.retire_branchIfEqual_branched (hv : s.cfg.Valid) (ra rb : Nat) {off d : Int}
    (hd : s.branchOffset off ≡ d [ZMOD s.cfg.S]) :
    Branched ra rb d s.cfg.profile.IB s (s.retire (s.branchIfEqual ra rb off)) := by
  refine ⟨fun heq => ?taken, fun hne => ?notTaken⟩
  case taken =>
    have hS : 0 < s.cfg.S := Nat.zero_lt_of_lt hv.1
    rw [State.branchIfEqual_of_eq off heq]
    obtain ⟨-, -, hends⟩ := State.retire_onlySetsPc hv (some (s.branchTarget off))
    have ⟨_, _, hnext, _⟩ := hends
    obtain ⟨hpc, hrun, -⟩ := hnext (s.branchTarget_lt off hS)
    refine ⟨?_, hpc.symm ▸ hends, hrun⟩
    calc ((s.retire (some (s.branchTarget off))).pc : Int)
        = (s.branchTarget off : Int) := congrArg Nat.cast hpc
      _ = ((s.pc : Int) + s.branchOffset off) % (s.cfg.S : Int) := s.branchTarget_cast off hS
      _ = ((s.pc : Int) + d) % (s.cfg.S : Int) := hd.add_left _
  case notTaken =>
    rw [State.branchIfEqual_of_ne off hne]
    obtain ⟨-, -, hends⟩ := State.retire_onlySetsPc hv none
    exact hends

/-- A BEQ's step in either profile, by its offset field `f` (rule R131, and spec/93_implementation_defined.md I3). -/
theorem State.retire_branchIfEqual_sext (hv : s.cfg.Valid) (ra rb : Nat) {f : Nat} (hf : f < 2 ^ s.cfg.profile.BOW) :
    let t := s.retire (s.branchIfEqual ra rb (sext s.cfg.profile.BOW f))
    SameRegs s t ∧ SameBytes s t ∧
      ((s.cfg.offsetReading = .signed ∨ s.cfg.S ∣ 2 ^ s.cfg.profile.BOW) →
        Branched ra rb (sext s.cfg.profile.BOW f) s.cfg.profile.IB s t) ∧
      (s.cfg.offsetReading = .unsigned → Branched ra rb f s.cfg.profile.IB s t) := by
  obtain ⟨hregs, hbytes, -⟩ :=
    State.retire_onlySetsPc hv (s.branchIfEqual ra rb (sext s.cfg.profile.BOW f))
  refine ⟨hregs, hbytes, fun h => ?asSigned, fun h => ?asUnsigned⟩
  case asSigned => exact State.retire_branchIfEqual_branched hv ra rb (State.branchOffset_modEq _ h)
  case asUnsigned =>
    refine State.retire_branchIfEqual_branched hv ra rb ?_
    rw [s.branchOffset_unsigned h hf]

/-- Settles O25: BEQ writes pc alone, and its target is that of the field's signed or unsigned value modulo S. -/
theorem beqBranchesModS : Obligations.BeqBranchesModS := by
  refine ⟨fun s ra rb f hp hv hra hrb hf => ?p32, fun s ra rb f hp hv hra hrb hf => ?p64⟩
  case p32 =>
    have hbranch := State.retire_branchIfEqual_sext hv ra rb (f := f) (by rw [hp]; exact hf)
    rw [hp] at hbranch
    exact sext_succ_eq hf ▸ ⟨decodeWord_beqP32 hra hrb hf, _, exec_beqP32 hp ra rb _, hbranch⟩
  case p64 =>
    have hbranch := State.retire_branchIfEqual_sext hv ra rb (f := f) (by rw [hp]; exact hf)
    rw [hp] at hbranch
    exact sext_succ_eq hf ▸ ⟨decodeWord_beqP64 hra hrb hf, _, exec_beqP64 hp ra rb _, hbranch⟩

end Sys2Proof.Machine
end

section
/-!
PROOFS. Exceptions and the run-state machine (spec/60_exceptions.md): nothing is fatal, what each host command does to
each run-state, the forced halt as a stop, the self-loops that never halt, and the invariant along every run.
-/

namespace Sys2Proof.Machine

open Sys2Proof.Claims

variable {s t : State}

/-! ### Every step and every command answers -/

/-- The decoder of a block gives it instructions of its own profile alone (rules R60 and R70). -/
theorem State.fetchInstr_profile (s : State) : s.fetchInstr.profile = s.cfg.profile := by
  obtain ⟨-, hp, -⟩ := decodeIsTotalAndWellFormed s.cfg.profile s.fetchWord
  exact hp

theorem step_answers (s : State) : ∃ t, step s = .next t := by
  by_cases hr : s.runState = .running
  · rw [step_of_running hr]
    exact exec_answers _ s s.fetchInstr_profile.symm
  · exact ⟨s, step_of_not_running hr⟩

/-- Settles O35: the fetched instruction is of the block's own profile, where every arm answers. -/
theorem stepAlwaysAnswersNext : Obligations.StepAlwaysAnswersNext := by
  intro s
  obtain ⟨t, ht⟩ := step_answers s
  exact ⟨t, ht, step_cfg ht⟩

theorem State.command_answers (s : State) (c : Command) : ∃ t, s.command c = .next t := by
  cases c with
  | load _ | start | pause | stop => exact ⟨_, rfl⟩
  | step => exact step_answers s

theorem State.runCommands_answers (s : State) (cs : List Command) : ∃ t, s.runCommands cs = .next t := by
  induction cs generalizing s with
  | nil => exact ⟨s, rfl⟩
  | cons c cs ih =>
    obtain ⟨u, hu⟩ := s.command_answers c
    obtain ⟨t, ht⟩ := ih u
    exact ⟨t, State.runCommands_cons_next.mpr ⟨u, hu, ht⟩⟩

/-! ### What each command does to each field -/

theorem State.start_of_loaded (h : s.loaded = true) : s.start = s.setRunState .running := if_pos h

theorem State.start_of_not_loaded (h : s.loaded = false) : s.start = s.emit Event.programNotLoaded :=
  if_neg (Bool.eq_false_iff.mp h)

section HostCommands

variable (s)

@[simp] theorem State.load_runState (bs : List Byte) : (s.load bs).runState = s.runState := by simp [State.load]

theorem State.start_runState : s.start.runState = if s.loaded then .running else s.runState := by
  unfold State.start
  split <;> rfl
@[simp] theorem State.start_reg (j : Nat) : s.start.reg j = s.reg j := by
  unfold State.start
  split <;> rfl
@[simp] theorem State.start_byteAt (b : Nat) : s.start.byteAt b = s.byteAt b := by
  unfold State.start
  split <;> rfl
@[simp] theorem State.start_loaded : s.start.loaded = s.loaded := by
  unfold State.start
  split <;> rfl

@[simp] theorem State.pause_runState : s.pause.runState = .paused := rfl
@[simp] theorem State.pause_reg (j : Nat) : s.pause.reg j = s.reg j := rfl
@[simp] theorem State.pause_byteAt (b : Nat) : s.pause.byteAt b = s.byteAt b := rfl
@[simp] theorem State.pause_loaded : s.pause.loaded = s.loaded := rfl

@[simp] theorem State.stop_runState : s.stop.runState = .halted := rfl
@[simp] theorem State.stop_reg (j : Nat) : s.stop.reg j = s.reg j := rfl
@[simp] theorem State.stop_byteAt (b : Nat) : s.stop.byteAt b = s.byteAt b := rfl
@[simp] theorem State.stop_loaded : s.stop.loaded = s.loaded := rfl

/-- Every stop is the host's but for the cause its event tells (rules R148 and R150). -/
theorem State.stopWith_eq_stop (c : StopCause) :
    s.stopWith c = { s.stop with events := s.events ++ [Event.stopped c] } := rfl

/-- A stopped block that is stopped again gains an event alone (spec/90_conflicts.md C8). -/
theorem State.stop_stop : s.stop.stop = { s.stop with events := s.stop.events ++ [Event.stopped .host] } := rfl

end HostCommands

/-- Settles O41: `start` is one of two updates, which of them `loaded` decides. -/
theorem startNeedsLoadedProgram : Obligations.StartNeedsLoadedProgram := by
  intro s
  refine ⟨s.start, rfl, fun j _ => s.start_reg j, s.start_byteAt, s.start_pc, s.start_loaded, s.start_cfg,
    fun h => ?notLoaded, fun h => ?loaded⟩
  case notLoaded => rw [State.start_of_not_loaded h]; exact ⟨s.emit_runState _, s.emit_events _⟩
  case loaded => rw [State.start_of_loaded h]; exact ⟨s.setRunState_runState _, s.setRunState_events _⟩

/-- Settles O42: `pause` writes the run-state and an event alone, and so `start` finds the program and pc. -/
theorem pauseKeepsPc : Obligations.PauseKeepsPc := by
  refine fun s => ⟨⟨s.pause, rfl, s.pause_runState, s.pause_events, fun j _ => s.pause_reg j, s.pause_byteAt,
    s.pause_pc, s.pause_loaded, s.pause_cfg⟩, fun hl => ⟨s.pause.start, rfl, ?_, ?_⟩⟩
  · rw [State.start_runState, s.pause_loaded, if_pos hl]
  · rw [State.start_pc, s.pause_pc]

/-- Settles O43: all but the event that a second `stop` sets is set already. -/
theorem stopIsIdempotent : Obligations.StopIsIdempotent := fun s =>
  ⟨s.stop, s.stop.stop, rfl, rfl, s.stop_runState, s.stop_pc, fun j _ => s.stop_reg j, s.stop_byteAt, s.stop_loaded,
    s.stop_cfg, s.stop_events, s.stop_stop⟩

/-- Settles O44: a target at or beyond S takes the branch of the halt check that stops the block. -/
theorem forcedHaltIsStop : Obligations.ForcedHaltIsStop := by
  intro s target h
  have hstop : s.retire (some target) = s.stopWith .memoryExhausted := State.retire_of_le (o := some target) h
  exact ⟨s.stop, rfl, hstop.trans (s.stopWith_eq_stop _), fun j _ => s.retire_reg _ j, s.retire_byteAt _⟩

/-! ### The run-state table -/

/-- The step of a Running block leaves it Running or halts it (rule R149). -/
theorem step_runState_cases (hr : s.runState = .running) (h : step s = .next t) :
    t.runState = .running ∨ t.runState = .halted := by
  rw [step_of_running hr] at h
  obtain ⟨-, u, o, he, rfl⟩ := exec_next h
  obtain ⟨-, hur, -⟩ := he.keeps_control
  obtain hkept | ⟨hhalted, -⟩ := u.retire_runState_cases o
  · exact .inl (hkept.trans (hur.trans hr))
  · exact .inr hhalted

/-- Settles O45: the rows of rule R149's table, the unloaded one by the invariant's `running_loaded`. -/
theorem runStateTable : Obligations.RunStateTable := by
  refine fun s hs => ⟨fun bs => ⟨_, rfl, s.load_runState bs⟩, fun hl => ⟨fun hr => ?running, s.start, rfl, ?refused⟩,
    fun hl => ⟨s.start, rfl, ?started⟩, ⟨_, rfl, s.pause_runState⟩, ⟨_, rfl, s.stop_runState⟩,
    fun hr => step_of_not_running hr, fun hr => ?step⟩
  case running => exact Bool.false_ne_true (hl.symm.trans (hs.running_loaded hr))
  case refused => rw [State.start_of_not_loaded hl]; exact ⟨s.emit_runState _, s.emit_events _⟩
  case started => rw [State.start_of_loaded hl, s.setRunState_runState]
  case step =>
    obtain ⟨t, ht⟩ := step_answers s
    exact ⟨t, ht, step_runState_cases hr ht⟩

/-! ### Self-loops -/

theorem State.retire_some_pc (h : s.pc < s.cfg.S) : s.retire (some s.pc) = s := by
  obtain ⟨hle, -⟩ | ⟨-, hset⟩ := s.retire_cases (some s.pc)
  · exact absurd hle h.not_ge
  · exact hset.trans s.setPc_self

/-- A branch with offset 0 aims at its own address, under either reading of the offset (rule R131). -/
theorem State.branchTarget_zero (h : s.pc < s.cfg.S) : s.branchTarget 0 = s.pc := by
  rw [State.branchTarget, s.branchOffset_zero, Int.add_zero, ← Int.natCast_mod, Int.toNat_natCast, Nat.mod_eq_of_lt h]

theorem State.branchIfEqual_zero {ra rb : Nat} (h : s.pc < s.cfg.S) (heq : s.reg ra = s.reg rb) :
    s.branchIfEqual ra rb 0 = some s.pc := by
  rw [State.branchIfEqual_of_eq 0 heq, State.branchTarget_zero h]

/-- An instruction with no effect but a jump to itself leaves the whole state (rule R151). -/
theorem step_of_selfLoop {i : Instr} (hr : s.runState = .running) (hpc : s.pc < s.cfg.S) (hi : s.fetchInstr = i)
    (heffect : s.effectOf i = s) (hset : pcSet i s = some s.pc) : step s = .next s := by
  have hp : s.cfg.profile = i.profile := hi ▸ s.fetchInstr_profile.symm
  rw [step_of_running hr, hi, exec_eq_retire, s.onProfile_same _ hp, heffect, hset, State.retire_some_pc hpc]

/-- A machine that a step leaves as it is stays so for any number of steps. -/
theorem run_of_step_self {M : Host.Core} {c : M.State} (h : M.step c = .next c) (n : Nat) : M.run n c = .next c := by
  induction n with
  | zero => rfl
  | succ n ih => rw [Host.Core.run, h]; exact ih

/-- Settles O38: one step of a self-loop answers the state it began in, and so does every number of them. -/
theorem selfLoopNeverHalts : Obligations.SelfLoopNeverHalts := by
  intro s n hr hpc hloop
  refine run_of_step_self (M := core) ?_ n
  obtain hi | hi | ⟨ra, rb, heq, hi | hi⟩ := hloop
  · exact step_of_selfLoop hr hpc hi rfl rfl
  · exact step_of_selfLoop hr hpc hi rfl rfl
  all_goals
    have hset := (s.branchIfEqual_eq ra rb 0).symm.trans (State.branchIfEqual_zero hpc heq)
    exact step_of_selfLoop hr hpc hi rfl hset

/-! ### The invariant along a run of commands -/

theorem State.Inv.setRunState (h : s.Inv) {r : RunState} (hrunning : r = .running → s.loaded = true)
    (hpc : r = .halted ∨ r = .idle → s.pc = 0) : (s.setRunState r).Inv :=
  ⟨h.cfg_valid, h.pc_lt, h.mem_wf, h.mem_within, hrunning, fun q => hpc (.inl q), fun q => hpc (.inr q),
    h.events_legal⟩

/-- `start` makes Running only a block with a program (rule R146). -/
theorem State.Inv.start (h : s.Inv) : s.start.Inv := by
  cases hl : s.loaded with
  | false =>
    rw [State.start_of_not_loaded hl]
    exact h.emit rfl
  | true =>
    rw [State.start_of_loaded hl]
    exact h.setRunState (fun _ => hl) (by simp)

theorem State.Inv.pause (h : s.Inv) : s.pause.Inv := (h.setRunState (by simp) (by simp)).emit rfl

theorem State.command_inv {c : Command} (hs : s.Inv) (h : s.command c = .next t) : t.Inv := by
  cases c with
  | load bs => cases h; exact hs.load bs
  | start => cases h; exact hs.start
  | pause => cases h; exact hs.pause
  | stop => cases h; exact hs.stopWith .host
  | step => exact step_inv hs h

/-- Settles O55: every run answers, and what every command keeps holds where it ends. -/
theorem everyRunIsSafe : Obligations.EveryRunIsSafe := by
  intro s cs hs
  obtain ⟨t, ht⟩ := s.runCommands_answers cs
  exact ⟨t, ht, State.runCommands_keeps (fun hc hr => State.command_inv hr hc) ht hs⟩

end Sys2Proof.Machine
end

section
/-!
PROOFS. Reset and hazards (spec/70_reset_and_hazards.md): where the bytes of a loaded file stand in memory, and that
a block that was loaded and started runs the first word of its file.
-/

namespace Sys2Proof.Machine

open Sys2Proof.Claims

/-! ### The words of a file in FILE_ORDER -/

/-- Byte j of a file word's value is the file byte whose place in the word FILE_ORDER gives (rule R172). -/
theorem ofNat_fileWordValue_div (order : FileOrder) {wb k j : Nat} {bs : List Byte}
    (hk : k < fileWordCount wb bs.length) (hj : j < wb) :
    BitVec.ofNat 8 (fileWordValue order (fileWord wb (padFile wb bs) k) / 256 ^ j) =
      fileByte bs wb k (filePlace order wb j) := by
  have hlen := length_fileWord wb bs k hk
  cases order with
  | big =>
    rw [fileWordValue, ofNat_leValue_div _ j (by rwa [List.length_reverse, hlen]), List.getElem_reverse,
      getElem_fileWord, hlen]
    rfl
  | little =>
    rw [fileWordValue, ofNat_leValue_div _ j (by rwa [hlen]), getElem_fileWord]
    rfl

/-- A word past the end of the file is zero (rule R172). -/
theorem fileByte_of_length_le {wb k : Nat} {bs : List Byte} (h : bs.length ≤ k * wb) (j : Nat) :
    fileByte bs wb k j = 0 := by
  rw [fileByte, List.getElem?_eq_none (Nat.le_add_right_of_le h), Option.getD_none]

/-! ### Loading -/

section Load

variable (s : State)

@[simp] theorem State.load_reg (bs : List Byte) (i : Nat) : (s.load bs).reg i = s.reg i := by simp [State.load]

@[simp] theorem State.load_loaded (bs : List Byte) : (s.load bs).loaded = true := rfl

/-- Byte j of memory word k after a load: the file's byte when the word was stored, and the old byte otherwise
(rules R50 and R172). -/
theorem State.load_byteAt {k j : Nat} (bs : List Byte) (hm : s.mem.wf = true) (hj : j < s.cfg.profile.WB) :
    (s.load bs).byteAt (k * s.cfg.profile.WB + j) =
      if k * s.cfg.profile.WB < bs.length ∧ (k + 1) * s.cfg.profile.WB ≤ s.cfg.S then
        fileByte bs s.cfg.profile.WB k (filePlace s.cfg.fileOrder s.cfg.profile.WB j)
      else s.byteAt (k * s.cfg.profile.WB + j) := by
  have hcount : k < fileWordCount s.cfg.profile.WB bs.length ↔ k * s.cfg.profile.WB < bs.length :=
    lt_fileWordCount (Nat.zero_lt_of_lt hj)
  have hwords := s.loadWords_byteAt (padFile s.cfg.profile.WB bs) (fileWordCount s.cfg.profile.WB bs.length) k j hm hj
  simp only [hcount] at hwords
  refine hwords.trans ?_
  split
  case isTrue h => exact ofNat_fileWordValue_div _ (hcount.mpr h.1) hj
  case isFalse => rfl

end Load

/-- Settles O46: the bytes of a load word by word, and the fields it leaves or sets. -/
theorem loadStoresFileWords : Obligations.LoadStoresFileWords := by
  refine fun s bs hm => ⟨s.load bs, rfl, fun k j hk hj hS => ?stored, fun k j hout hj => ?kept,
    fun j _ => s.load_reg bs j, s.load_pc bs, s.load_runState bs, s.load_cfg bs, s.load_loaded bs, s.load_events bs⟩
  case stored => rw [s.load_byteAt bs hm hj, if_pos ⟨hk, hS⟩]
  case kept => rw [s.load_byteAt bs hm hj, if_neg (by omega)]

/-! ### From construction to the first step -/

/-- Rule R6 makes memory hold more than one word. -/
theorem Config.Valid.WB_le {c : Config} (h : c.Valid) : c.profile.WB ≤ c.S := by
  obtain ⟨hIB, -⟩ := h
  rw [Profile.WB_eq_IB]
  exact hIB.le

/-- Memory word 0 of a block loaded at construction is the file's first word; of an empty file that word is zero, as
memory was (rules R32 and R172). -/
theorem State.construct_load_byteAt {c : Config} {j : Nat} (bs : List Byte) (hv : c.Valid) (hj : j < c.profile.WB) :
    ((State.construct c).load bs).byteAt j =
      fileByte bs c.profile.WB 0 (filePlace c.fileOrder c.profile.WB j) := by
  have hbyte := (State.construct c).load_byteAt (k := 0) bs rfl hj
  rw [State.construct_cfg, Nat.zero_mul, Nat.zero_add, Nat.zero_add, Nat.one_mul] at hbyte
  rw [hbyte]
  split
  case isTrue => rfl
  case isFalse h =>
    have hS := Config.Valid.WB_le hv
    have hempty : bs.length ≤ 0 * c.profile.WB := by omega
    rw [fileByte_of_length_le hempty]
    rfl

/-- A started block fetches from the memory and the pc it had before (rule R146). -/
theorem State.start_fetchWord (s : State) : s.start.fetchWord = s.fetchWord := by
  unfold State.start
  split <;> rfl

/-- The word at the entry point of a block loaded at construction (rules R61, R172 and R174). -/
theorem State.construct_load_fetchWord {c : Config} (bs : List Byte) (hv : c.Valid) :
    ((State.construct c).load bs).fetchWord = ∑ j ∈ Finset.range c.profile.WB,
      (fileByte bs c.profile.WB 0 (filePlace c.fileOrder c.profile.WB j)).toNat * 2 ^ (8 * j) := by
  have hS : 0 + c.profile.WB ≤ c.S := (Nat.zero_add _).trans_le (Config.Valid.WB_le hv)
  rw [State.fetchWord, State.load_pc, State.load_cfg, State.construct_pc, State.construct_cfg,
    ← Profile.WB_eq_IB, memReadIsLittleEndianSum, State.load_cfg, State.construct_cfg, if_pos hS, littleEndian]
  refine Finset.sum_congr rfl fun j hj => ?_
  rw [Nat.zero_add, State.construct_load_byteAt bs hv (Finset.mem_range.mp hj)]

/-- Settles O47: before a load `start` only reports; after one it makes Running, and the word fetched at pc 0 is the
file's first. -/
theorem bootRunsFirstFileWord : Obligations.BootRunsFirstFileWord := by
  intro c bs hv
  have hrunning : ((State.construct c).load bs).start.runState = .running := by
    rw [State.start_runState, State.load_loaded, if_pos rfl]
  refine ⟨rfl, ((State.construct c).load bs).start, rfl, hrunning, ?pc, fun i _ => ?reg, ?step⟩
  case pc => rw [State.start_pc, State.load_pc, State.construct_pc]
  case reg => rw [State.start_reg, State.load_reg, State.construct_reg]
  case step =>
    rw [step_of_running hrunning, State.fetchInstr, State.start_fetchWord, State.start_cfg, State.load_cfg,
      State.construct_cfg, State.construct_load_fetchWord bs hv]

end Sys2Proof.Machine
end

section
/-!
PROOFS. The two readings of BEQ's offset field (spec/92_eei_decisions.md D8, spec/93_implementation_defined.md I3): they
differ by a multiple of `2^BOW`, which a branch target loses where S divides it.
-/

namespace Sys2Proof

/-- The signed reading of a field differs from the field by nothing or by `2^n` (rule R10). -/
theorem sext_modEq (n f : Nat) : sext n f ≡ f [ZMOD 2 ^ n] := by
  unfold sext
  split
  case isTrue => exact Int.sub_emod_right _ _
  case isFalse => rfl

namespace Machine

variable {s : State}

/-- A branch target depends on its displacement modulo S alone (rule R131). -/
theorem State.branchTarget_cast_of_modEq {off d : Int} (hS : 0 < s.cfg.S)
    (hd : s.branchOffset off ≡ d [ZMOD s.cfg.S]) :
    (s.branchTarget off : Int) = ((s.pc : Int) + d) % (s.cfg.S : Int) :=
  (s.branchTarget_cast off hS).trans (hd.add_left _)

theorem State.branchTarget_of_modEq {off : Int} {f : Nat} (hS : 0 < s.cfg.S)
    (hf : s.branchOffset off ≡ f [ZMOD s.cfg.S]) : s.branchTarget off = (s.pc + f) % s.cfg.S := by
  exact_mod_cast State.branchTarget_cast_of_modEq hS hf

/-- Settles O27: where S divides `2^BOW` the displacement, the signed field and the field agree modulo S; elsewhere the
displacement is the configuration's own reading. -/
theorem offsetSignednessIsImmaterial : Obligations.OffsetSignednessIsImmaterial := by
  refine ⟨fun p => ?standard, fun s f hv hdvd _ => ?either, fun s f hv hf => ⟨fun h => ?signed, fun h => ?unsigned⟩⟩
  case standard => cases p <;> decide
  all_goals have hS : 0 < s.cfg.S := Nat.zero_lt_of_lt hv.1
  case either =>
    have hsigned : s.branchOffset (sext s.cfg.profile.BOW f) ≡ sext s.cfg.profile.BOW f [ZMOD s.cfg.S] :=
      State.branchOffset_modEq _ (.inr hdvd)
    have hfield : sext s.cfg.profile.BOW f ≡ f [ZMOD s.cfg.S] :=
      (sext_modEq _ f).of_dvd (by exact_mod_cast hdvd)
    exact ⟨State.branchTarget_of_modEq hS (hsigned.trans hfield), State.branchTarget_cast_of_modEq hS hsigned⟩
  case signed => exact State.branchTarget_cast_of_modEq hS (State.branchOffset_modEq _ (.inl h))
  case unsigned => exact State.branchTarget_of_modEq hS (by rw [s.branchOffset_unsigned h hf])

end Machine

end Sys2Proof
end
